-- ==== Sys2Proof/Word.lean ====
section
/-! DEFINITION. The words of GRAINS CORE: the widths its registers, wires and event words have
(spec/10_state.md R10, spec/30_encoding.md R45, R46). -/

namespace Sys2Proof

/-- One event word, `W[23:0]` (R45). -/
abbrev EventWord := BitVec 24

/-- `PHASE_W`, `OFFSET_W` = 16: phases, the pitch increment and the slave offsets (R6). -/
abbrev Word := BitVec 16

/-- `OUT_W` = 8: a sample, that is a duty code (R6, R13, R14). -/
abbrev Sample := BitVec 8

/-- The unsigned magnitude of a signal (R70, R80, R94). -/
abbrev Magnitude := BitVec 8

/-- An analog reading in [0,1023]: ten bits hold exactly that range (R46). -/
abbrev Reading := BitVec 10

/-- The one bit carried beside a magnitude (R9, R17): `false` = 0 = positive, `true` = 1 = negative. -/
abbrev Polarity := Bool

end Sys2Proof
end

