-- ==== Sys2Proof/Config.lean ====
section
/-! DEFINITION. What an implementation fixes: the parameters of spec/00_scope.md R6.
The constants fixed by the source are numerals here. `OCTAVE_LUT` and the three parameters no rule uses have no
value a proof can see. `RESET_VALUES` and `TORN_WRITES` are the record `Params`: the machine's state carries one
(log entry 2), so a statement about every state is a statement about every choice of them. -/

namespace Sys2Proof

namespace Config

/-- `ADC_MAX` (R6): the largest analog reading. -/
abbrev adcMax : Nat := 1023

/-- `KNOB_DEADZONE` (R6): the pitch knob contributes only above this. -/
abbrev knobDeadzone : Nat := 600

/-- `WRAP_MIN` (R6). -/
abbrev wrapMin : Nat := 64

/-- `WRAP_MAX` (R6). -/
abbrev wrapMax : Nat := 511

/-- `NEGWRAP_MIN` (R6). -/
abbrev negWrapMin : Nat := 64

/-- `NEGWRAP_MAX` (R6). -/
abbrev negWrapMax : Nat := 255

end Config

/-- The pitch lookup as a type (R32): a total function from [0,1023] to [0,65535], monotonic non-decreasing. These
two facts are all the spec lets a claim use. The constant table in the default fields only shows that such tables
exist; it is the value of nothing. -/
structure OctaveLut where
  entry : Reading → Word := fun _ => 0
  mono : ∀ i j, i ≤ j → entry i ≤ entry j := by (intros; exact BitVec.le_refl _)
deriving Inhabited

/-- The four analog inputs (R33). They stand outside the block: a reading reaches it as an operand. -/
inductive AnalogInput where
  | pitchCv | pitchKnob | detuneKnob | foldKnob
deriving DecidableEq, Repr

namespace Config

/-- `OCTAVE_LUT` (R6, R32), OPEN: its contents are not in the source. No proof can see them (log entry 4). -/
opaque octaveLut : OctaveLut

/-- `SAMPLE_RATE_HZ` (R6), OPEN, used by no rule. -/
opaque sampleRateHz : Nat

/-- `PWM_CARRIER` (R6), OPEN, used by no rule. -/
opaque pwmCarrierHz : Nat

/-- `ADC_CHANNEL_IDS` (R6), OPEN, used by no rule: which channel is which input. -/
opaque adcChannelId : AnalogInput → Nat

end Config

/-- The eight registers of the block (R10, R29), numbered 0 to 7 in this order. `RESET_VALUES` is a record of the
same shape (R27). -/
structure Regs where
  masterPhase        : Word
  slaveOffsetCurrent : Word
  output             : Sample
  pwmDuty            : Sample
  pitchIncrement     : Word
  slaveOffsetTarget  : Word
  wrapFactor         : BitVec 9
  negWrapFactor      : BitVec 8
deriving DecidableEq, Repr

/-- The default of `RESET_VALUES`: the spec's own table (R27, decision D11). -/
def Config.defaultResetValues : Regs :=
  { masterPhase := 0, slaveOffsetCurrent := 0, output := 128, pwmDuty := 128,
    pitchIncrement := 0, slaveOffsetTarget := 0, wrapFactor := 64, negWrapFactor := 64 }

/-- The two values of `TORN_WRITES` (R6, R39). -/
inductive TornWrites where
  /-- Every register write of every event lands whole (R36); the default. -/
  | atomic
  /-- A control event's write may be split, with at most one TICK inside it (R39). -/
  | bytewise
deriving DecidableEq, Repr

/-- The parameters a run is taken under (R6): no event changes them. -/
structure Params where
  resetValues : Regs
  tornWrites  : TornWrites
deriving DecidableEq, Repr

/-- The defaults of R6 and R27. -/
def Config.defaultParams : Params :=
  { resetValues := Config.defaultResetValues, tornWrites := .atomic }

end Sys2Proof
end

