-- ==== Sys2Proof/Syntax.lean ====
section
/-! DEFINITION. The events of GRAINS CORE, one constructor for each row of spec/opcode_table.json
(spec/30_encoding.md R47), and the two pseudo-instructions R55 and R56. -/

namespace Sys2Proof

/-- One event: an atomic state change of the block (R9, R47). Operands have their fields' widths (R46), so a value
out of a field's range cannot be written down; what the widths do not rule out is `Instr.wellFormed`. -/
inductive Instr where
  /-- `TICK`: one sample period of the engine (R110). -/
  | tick
  /-- `WRPI imm16`: raw write of PitchIncrement (R120). -/
  | wrpi (imm16 : BitVec 16)
  /-- `WRWF wf9, nwf8`: raw write of WrapFactor and NegWrapFactor (R121). -/
  | wrwf (wf9 : BitVec 9) (nwf8 : BitVec 8)
  /-- `LDPITCH cv10, knob10`: conditioned pitch load (R122). -/
  | ldpitch (cv10 knob10 : BitVec 10)
  /-- `LDDETUNE k10`: detune load (R123). -/
  | lddetune (k10 : BitVec 10)
  /-- `LDFOLD k10`: conditioned fold load (R124). -/
  | ldfold (k10 : BitVec 10)
  /-- `RESET` (R150). -/
  | reset
deriving DecidableEq, Repr

/-- Whether an event is one of the sampler's five (R23, spec/46_control_port.md). -/
def Instr.isControl : Instr → Bool
  | .tick => false
  | .wrpi _ => true
  | .wrwf _ _ => true
  | .ldpitch _ _ => true
  | .lddetune _ => true
  | .ldfold _ => true
  | .reset => false

/-- The pseudo-instruction `POLL cv, pk, dk, fk`: one invocation of the sampler, as three events (R55, R125). -/
def pollEvents (cv pk dk fk : Reading) : List Instr :=
  [.ldpitch cv pk, .lddetune dk, .ldfold fk]

/-- The pseudo-instruction `RUN n`: n consecutive TICK events (R56). -/
def runEvents (n : Nat) : List Instr :=
  List.replicate n .tick

end Sys2Proof
end

