-- ==== Sys2Proof/WellFormed.lean ====
section
/-! DEFINITION. Which events have an event word: the operand constraints of spec/30_encoding.md R51. -/

namespace Sys2Proof

/-- The operand values `WRWF` may carry (R51): the invariant of spec/10_state.md R22, I1 to I3. -/
def legalFoldPair (wf9 : BitVec 9) (nwf8 : BitVec 8) : Bool :=
  Config.wrapMin ≤ wf9.toNat && Config.negWrapMin ≤ nwf8.toNat && nwf8.toNat ≤ wf9.toNat

/-- An event's operands are among those the encoding admits. Only `WRWF` has reserved operand values (R51). -/
def Instr.wellFormed : Instr → Bool
  | .tick => true
  | .wrpi _ => true
  | .wrwf wf9 nwf8 => legalFoldPair wf9 nwf8
  | .ldpitch _ _ => true
  | .lddetune _ => true
  | .ldfold _ => true
  | .reset => true

end Sys2Proof
end

