-- ==== Sys2Proof/Decode.lean ====
section
/-! DEFINITION. From event words to events and back (spec/30_encoding.md R46 to R54), and the opcode table's seven
match and mask pairs (spec/opcode_table.json). -/

namespace Sys2Proof

/-- Why a word is reserved, by the rule that reserves it. -/
inductive Reserved where
  /-- Its opcode has no row (R50). -/
  | opcode
  /-- A must-be-zero field has a bit set (R49). -/
  | mustBeZero
  /-- `WRWF` with operand values outside the invariant (R51). -/
  | operands
deriving DecidableEq, Repr

/-- The decoder's verdict on a word (R52): one of the seven events, or `invalid`. -/
inductive Verdict where
  | event (i : Instr)
  | invalid (why : Reserved)
deriving DecidableEq, Repr

/-- A must-be-zero field (R49): with any bit set the word is reserved. -/
def Verdict.ifZero {n : Nat} (field : BitVec n) (v : Verdict) : Verdict :=
  if field = 0 then v else .invalid .mustBeZero

/-- The last check of `WRWF` (R51, R53). -/
def Verdict.ofFoldPair (wf9 : BitVec 9) (nwf8 : BitVec 8) : Verdict :=
  if legalFoldPair wf9 nwf8 then .event (.wrwf wf9 nwf8) else .invalid .operands

/-- The decoding procedure, total on all 2^24 words (R53). `w.extractLsb' lo len` is `W[lo+len-1:lo]`. -/
def decode (w : EventWord) : Verdict :=
  match (w.extractLsb' 20 4).toNat with
  | 0x1 => .ifZero (w.extractLsb' 0 20) (.event .tick)
  | 0xF => .ifZero (w.extractLsb' 0 20) (.event .reset)
  | 0x2 => .ifZero (w.extractLsb' 16 4) (.event (.wrpi (w.extractLsb' 0 16)))
  | 0x3 => .ifZero (w.extractLsb' 17 3) (.ofFoldPair (w.extractLsb' 0 9) (w.extractLsb' 9 8))
  | 0x4 => .event (.ldpitch (w.extractLsb' 0 10) (w.extractLsb' 10 10))
  | 0x5 => .ifZero (w.extractLsb' 10 10) (.event (.lddetune (w.extractLsb' 0 10)))
  | 0x6 => .ifZero (w.extractLsb' 10 10) (.event (.ldfold (w.extractLsb' 0 10)))
  | _ => .invalid .opcode

/-- The encoding of each event, in the words of R54. -/
def encode : Instr → EventWord
  | .tick => 0x100000#24
  | .reset => 0xF00000#24
  | .wrpi imm16 => 0x200000#24 ||| imm16.setWidth 24
  | .wrwf wf9 nwf8 => 0x300000#24 ||| (nwf8.setWidth 24 <<< 9) ||| wf9.setWidth 24
  | .ldpitch cv10 knob10 => 0x400000#24 ||| (knob10.setWidth 24 <<< 10) ||| cv10.setWidth 24
  | .lddetune k10 => 0x500000#24 ||| k10.setWidth 24
  | .ldfold k10 => 0x600000#24 ||| k10.setWidth 24

/-- One row of spec/opcode_table.json: its mask and its match. -/
structure OpcodeRow where
  mask    : EventWord
  pattern : EventWord
deriving DecidableEq, Repr

/-- A word has a row's fixed bits. -/
def OpcodeRow.fits (row : OpcodeRow) (w : EventWord) : Bool :=
  w &&& row.mask == row.pattern

/-- The row of spec/opcode_table.json an event stands on. -/
def Instr.row : Instr → OpcodeRow
  | .tick => ⟨0xFFFFFF, 0x100000⟩
  | .wrpi _ => ⟨0xFF0000, 0x200000⟩
  | .wrwf _ _ => ⟨0xFE0000, 0x300000⟩
  | .ldpitch _ _ => ⟨0xF00000, 0x400000⟩
  | .lddetune _ => ⟨0xFFFC00, 0x500000⟩
  | .ldfold _ => ⟨0xFFFC00, 0x600000⟩
  | .reset => ⟨0xFFFFFF, 0xF00000⟩

/-- The seven rows, in the table's order. -/
def opcodeTable : List OpcodeRow :=
  [Instr.tick.row, (Instr.wrpi 0).row, (Instr.wrwf 0 0).row, (Instr.ldpitch 0 0).row, (Instr.lddetune 0).row,
    (Instr.ldfold 0).row, Instr.reset.row]

/-- The event this decoder reads from an instruction of `nbits` bits `w`. There is one length, 24 bits (R45). -/
def decodeTableWord (nbits w : Nat) : Option Instr :=
  if nbits ≤ 24 ∧ w < 2 ^ nbits then
    match decode (BitVec.ofNat 24 w) with
    | .event i => some i
    | .invalid _ => none
  else none

end Sys2Proof
end

