-- ==== Sys2Proof/Machine/State.lean ====
section
/-! DEFINITION. The machine's state as plain data (spec/10_state.md R10, R26, R29; spec/20_memory.md R39), its
reset, and the reasons a step can stop. -/

namespace Sys2Proof.Machine

open Sys2Proof

/-- The registers by name; no event word carries a register number (R10, R31). -/
inductive Reg where
  | masterPhase | slaveOffsetCurrent | output | pwmDuty
  | pitchIncrement | slaveOffsetTarget | wrapFactor | negWrapFactor
deriving DecidableEq, Repr

/-- One part of a control write that can land by itself when the platform tears writes (R39): the low byte, bits
[7:0], or the high byte, bits [15:8] (bit [8] of the 9-bit WrapFactor), of a register of more than 8 bits, or the
whole of NegWrapFactor. -/
inductive HalfWrite where
  | pitchLow (b : BitVec 8)
  | pitchHigh (b : BitVec 8)
  | targetLow (b : BitVec 8)
  | targetHigh (b : BitVec 8)
  | wrapLow (b : BitVec 8)
  | wrapHigh (b : BitVec 1)
  | negWrap (b : BitVec 8)
deriving DecidableEq, Repr

/-- How the platform tears one control write: the parts named land at once, the others behind at most one TICK
(R39). `neg` stands for the NegWrapFactor write of `WRWF` and `LDFOLD`. -/
inductive Tear where
  | whole | low | high | neg | lowHigh | lowNeg | highNeg
deriving DecidableEq, Repr

/-- The state of the model. -/
structure State where
  /-- The eight registers of the block (R10). -/
  regs : Regs
  /-- The trace of emitted duty codes, oldest first (R26). -/
  trace : List Sample
  /-- The parts of the last control write that have not landed yet; always empty under `atomic` (R39). -/
  halfWrites : List HalfWrite
  /-- The event words still to be consumed, next first: the input of a run (R38, R45). -/
  events : List EventWord
  /-- How the platform tears its next control writes, next first: an input, read only under `bytewise` (R39). -/
  tears : List Tear
  /-- The parameters the run is taken under (R6). -/
  params : Params
deriving DecidableEq, Repr

/-- The block raises nothing and faults nowhere: no fault has a name (R130, R131). -/
inductive Fault
deriving DecidableEq, Repr

/-- Why the model gives a run no meaning. -/
inductive Refusal where
  /-- An event without a meaning in this model; no arm of `exec` answers so. Safe. -/
  | notModelled (mnemonic : String)
  /-- Raised by `step` on a reserved event word (R52): the word is not an event and the model refuses the run. Safe:
  the hardware ignores the word. -/
  | invalidWord (w : EventWord) (why : Reserved)
  /-- Raised by `execWrwf` on operand values whose word is reserved (R51, R52); no word decodes to them. Safe. -/
  | reservedOperands
deriving DecidableEq, Repr

/-- The machine right after RESET (R27, R150): `RESET_VALUES` at the spec's default, the trace empty, nothing in
flight, no event waiting, the parameters at their defaults (R6). -/
def State.reset : State :=
  { regs := Config.defaultResetValues
    trace := []
    halfWrites := []
    events := []
    tears := []
    params := Config.defaultParams }

end Sys2Proof.Machine
end

