-- ==== Sys2Proof/Machine/Ops.lean ====
section
/-! DEFINITION. The shared operations over registers, trace and event stream: reading a register by name, emission
(spec/44_pwm_output.md R102, R104), control writes whole or torn (spec/20_memory.md R36, R39), and taking the next
event word. The block has no exception to take and none to return from (spec/60_exceptions.md R130, R136, R138), so
no such operation stands here. -/

namespace Sys2Proof.Machine

open Sys2Proof

/-- The two agents that change registers beside RESET (R5, R139). -/
inductive Agent where
  | engine | sampler
deriving DecidableEq, Repr

/-- The register's number (R10). -/
def Reg.number : Reg → Nat
  | .masterPhase => 0
  | .slaveOffsetCurrent => 1
  | .output => 2
  | .pwmDuty => 3
  | .pitchIncrement => 4
  | .slaveOffsetTarget => 5
  | .wrapFactor => 6
  | .negWrapFactor => 7

/-- The only agent that writes the register, RESET apart (R10, R23). -/
def Reg.owner : Reg → Agent
  | .masterPhase => .engine
  | .slaveOffsetCurrent => .engine
  | .output => .engine
  | .pwmDuty => .engine
  | .pitchIncrement => .sampler
  | .slaveOffsetTarget => .sampler
  | .wrapFactor => .sampler
  | .negWrapFactor => .sampler

/-- `x[i]`: the value a register holds, as a natural (R8). -/
def Reg.value (x : Regs) : Reg → Nat
  | .masterPhase => x.masterPhase.toNat
  | .slaveOffsetCurrent => x.slaveOffsetCurrent.toNat
  | .output => x.output.toNat
  | .pwmDuty => x.pwmDuty.toNat
  | .pitchIncrement => x.pitchIncrement.toNat
  | .slaveOffsetTarget => x.slaveOffsetTarget.toNat
  | .wrapFactor => x.wrapFactor.toNat
  | .negWrapFactor => x.negWrapFactor.toNat

/-- The state with other registers. -/
def State.withRegs (s : State) (x : Regs) : State :=
  { s with regs := x }

/-- The state with another event stream ahead of it. -/
def State.withEvents (s : State) (ws : List EventWord) : State :=
  { s with events := ws }

/-- `Emit` (R102): `PwmDuty <- Output`, and the new `PwmDuty` joins the trace (R104). -/
def emit (s : State) : State :=
  { s with
    regs := { s.regs with pwmDuty := s.regs.output }
    trace := s.trace ++ [s.regs.output] }

/-- A half-write lands in its register (R39): low byte bits [7:0], high byte bits [15:8], or bit [8] of WrapFactor. -/
def HalfWrite.land (x : Regs) : HalfWrite → Regs
  | .pitchLow b => { x with pitchIncrement := x.pitchIncrement.extractLsb' 8 8 ++ b }
  | .pitchHigh b => { x with pitchIncrement := b ++ x.pitchIncrement.extractLsb' 0 8 }
  | .targetLow b => { x with slaveOffsetTarget := x.slaveOffsetTarget.extractLsb' 8 8 ++ b }
  | .targetHigh b => { x with slaveOffsetTarget := b ++ x.slaveOffsetTarget.extractLsb' 0 8 }
  | .wrapLow b => { x with wrapFactor := x.wrapFactor.extractLsb' 8 1 ++ b }
  | .wrapHigh b => { x with wrapFactor := b ++ x.wrapFactor.extractLsb' 0 8 }
  | .negWrap b => { x with negWrapFactor := b }

/-- Several half-writes land, first to last. -/
def landAll (hs : List HalfWrite) (x : Regs) : Regs :=
  hs.foldl HalfWrite.land x

/-- Whatever is left of the last control write lands: "After the second half the register holds the event's value"
(R39). -/
def settle (s : State) : State :=
  { s with regs := landAll s.halfWrites s.regs, halfWrites := [] }

/-- What one control event writes: one register, or the fold pair together (R36). -/
inductive ControlWrite where
  | pitchIncrement (v : Word)
  | slaveOffsetTarget (v : Word)
  | foldPair (w : BitVec 9) (n : BitVec 8)
deriving DecidableEq, Repr

/-- The write as it lands whole (R36). -/
def ControlWrite.whole (x : Regs) : ControlWrite → Regs
  | .pitchIncrement v => { x with pitchIncrement := v }
  | .slaveOffsetTarget v => { x with slaveOffsetTarget := v }
  | .foldPair w n => { x with wrapFactor := w, negWrapFactor := n }

/-- The parts a tearing platform may split the write into (R39). -/
def ControlWrite.parts : ControlWrite → List HalfWrite
  | .pitchIncrement v => [.pitchLow (v.extractLsb' 0 8), .pitchHigh (v.extractLsb' 8 8)]
  | .slaveOffsetTarget v => [.targetLow (v.extractLsb' 0 8), .targetHigh (v.extractLsb' 8 8)]
  | .foldPair w n => [.wrapLow (w.extractLsb' 0 8), .wrapHigh (w.extractLsb' 8 1), .negWrap n]

/-- Low parts land at once under this tear. -/
def Tear.lowNow : Tear → Bool
  | .whole => true | .low => true | .high => false | .neg => false
  | .lowHigh => true | .lowNeg => true | .highNeg => false

/-- High parts land at once under this tear. -/
def Tear.highNow : Tear → Bool
  | .whole => true | .low => false | .high => true | .neg => false
  | .lowHigh => true | .lowNeg => false | .highNeg => true

/-- The NegWrapFactor write lands at once under this tear. -/
def Tear.negNow : Tear → Bool
  | .whole => true | .low => false | .high => false | .neg => true
  | .lowHigh => false | .lowNeg => true | .highNeg => true

/-- Whether a part lands at once (R39). -/
def Tear.landsNow (t : Tear) : HalfWrite → Bool
  | .pitchLow _ => t.lowNow
  | .pitchHigh _ => t.highNow
  | .targetLow _ => t.lowNow
  | .targetHigh _ => t.highNow
  | .wrapLow _ => t.lowNow
  | .wrapHigh _ => t.highNow
  | .negWrap _ => t.negNow

/-- The write torn: its first parts land, the others stay in flight (R39). A tear under which no part lands first
is none: the write lands whole. -/
def tornWrite (cw : ControlWrite) (t : Tear) (s : State) : State :=
  if cw.parts.filter t.landsNow = [] then
    { s with regs := cw.whole s.regs, halfWrites := [] }
  else
    { s with
      regs := landAll (cw.parts.filter t.landsNow) s.regs
      halfWrites := cw.parts.filter (fun h => !t.landsNow h) }

/-- One control write. What is left of the sampler's previous write lands before it: the sampler's writes occur in
its program order (R38 item 3). Under `atomic` the write lands whole (R36); under `bytewise` the platform tears it
as the next entry of `tears` says, and not at all once that list is used up (log entry 3). -/
def controlWrite (cw : ControlWrite) (s : State) : State :=
  match s.params.tornWrites with
  | .atomic => (settle s).withRegs (cw.whole (settle s).regs)
  | .bytewise => tornWrite cw (s.tears.headD .whole) { settle s with tears := s.tears.tail }

/-- What a tearing platform does after an event: at most one TICK falls inside a control write, so after a TICK the
rest of the write lands; no other event lands anything (R39). -/
def afterEvent (i : Instr) (s : State) : State :=
  match i with
  | .tick => settle s
  | .wrpi _ => s
  | .wrwf _ _ => s
  | .ldpitch _ _ => s
  | .lddetune _ => s
  | .ldfold _ => s
  | .reset => s

/-- What the event stream offers. -/
inductive Fetched where
  /-- No event word is waiting. -/
  | idle
  /-- The next word is reserved. -/
  | refused (w : EventWord) (why : Reserved)
  /-- The next event, and the state with its word consumed. -/
  | event (i : Instr) (s : State)
deriving DecidableEq, Repr

/-- Take the next event word: words are consumed one at a time in order (R45). -/
def fetch (s : State) : Fetched :=
  match s.events with
  | [] => .idle
  | w :: rest =>
    match decode w with
    | .event i => .event i (s.withEvents rest)
    | .invalid why => .refused w why

/-- No event waiting: the block holds its registers (R144); a control write in flight completes (R39). -/
def idle (s : State) : State :=
  settle s

end Sys2Proof.Machine
end

