-- ==== Sys2Proof/Machine/Operands.lean ====
section
/-! DEFINITION. The conditioning arithmetic the sampler applies to readings (spec/46_control_port.md R122 to R124);
operands themselves are unsigned fields taken as they stand (spec/30_encoding.md R48). -/

namespace Sys2Proof.Machine

open Sys2Proof

/-- `clamp(v, lo, hi) = min(max(v, lo), hi)` (R7). -/
def clamp (v lo hi : Nat) : Nat :=
  min (max v lo) hi

/-- What the pitch knob contributes above its deadzone: `max(0, knob - 600)` (R122). -/
def knobOver (knob10 : Reading) : Nat :=
  if knob10.toNat > Config.knobDeadzone then knob10.toNat - Config.knobDeadzone else 0

/-- The effective pitch reading (R122). -/
def effectivePitch (cv10 knob10 : Reading) : Reading :=
  BitVec.ofNat 10 (clamp (cv10.toNat + knobOver knob10) 0 Config.adcMax)

/-- The detune reading, unscaled, zero-extended to 16 bits (R123). -/
def detuneTarget (k10 : Reading) : Word :=
  k10.setWidth 16

/-- The fold reading's WrapFactor: `min(64 + (k10 div 2), 511)` (R124). -/
def foldWrapFactor (k10 : Reading) : BitVec 9 :=
  BitVec.ofNat 9 (min (Config.wrapMin + k10.toNat / 2) Config.wrapMax)

/-- The NegWrapFactor that goes with a WrapFactor: `max(w div 2, 64)` (R124). -/
def foldNegWrapFactor (w : BitVec 9) : BitVec 8 :=
  BitVec.ofNat 8 (max (w.toNat / 2) Config.negWrapMin)

end Sys2Proof.Machine
end

