-- ==== Sys2Proof/Machine/Control.lean ====
section
/-! DEFINITION. The five control events of the sampler (spec/46_control_port.md). Each writes control registers
only, reads no register and leaves the trace alone; how its write lands is `controlWrite`. -/

namespace Sys2Proof.Machine

open Sys2Proof

/-- `WRPI imm16` (R120): `PitchIncrement <- imm16`. -/
def execWrpi (imm16 : BitVec 16) (s : State) : Host.Outcome State Fault Refusal :=
  .next (controlWrite (.pitchIncrement imm16) s)

/-- `WRWF wf9, nwf8` (R121): the pair, together. Other operand values make the word reserved (R51, R52). -/
def execWrwf (wf9 : BitVec 9) (nwf8 : BitVec 8) (s : State) : Host.Outcome State Fault Refusal :=
  if legalFoldPair wf9 nwf8 then .next (controlWrite (.foldPair wf9 nwf8) s) else .refused .reservedOperands

/-- The pitch load over any lookup table (R122). -/
def loadPitch (lut : OctaveLut) (cv10 knob10 : Reading) (s : State) : State :=
  controlWrite (.pitchIncrement (lut.entry (effectivePitch cv10 knob10))) s

/-- `LDPITCH cv10, knob10` (R122): `PitchIncrement <- OCTAVE_LUT[eff]`. -/
def execLdpitch (cv10 knob10 : BitVec 10) (s : State) : Host.Outcome State Fault Refusal :=
  .next (loadPitch Config.octaveLut cv10 knob10 s)

/-- `LDDETUNE k10` (R123): `SlaveOffsetTarget <- k10`. -/
def execLddetune (k10 : BitVec 10) (s : State) : Host.Outcome State Fault Refusal :=
  .next (controlWrite (.slaveOffsetTarget (detuneTarget k10)) s)

/-- `LDFOLD k10` (R124): both factors from the one reading, the second from the clamped first. -/
def execLdfold (k10 : BitVec 10) (s : State) : Host.Outcome State Fault Refusal :=
  .next (controlWrite (.foldPair (foldWrapFactor k10) (foldNegWrapFactor (foldWrapFactor k10))) s)

end Sys2Proof.Machine
end

