-- ==== Sys2Proof/Machine/Reset.lean ====
section
/-! DEFINITION. The RESET event (spec/70_reset_and_hazards.md R150). -/

namespace Sys2Proof.Machine

open Sys2Proof

/-- `RESET` (R150): all eight registers take `RESET_VALUES`, the trace is cleared and nothing is emitted; a control
write in flight is cut off (R134). The events still to come and the parameters are no state of the block. -/
def execReset (s : State) : Host.Outcome State Fault Refusal :=
  .next { s with regs := s.params.resetValues, trace := [], halfWrites := [] }

end Sys2Proof.Machine
end

