-- ==== Sys2Proof/Machine/Flags.lean ====
section
/-! DEFINITION. The polarity wires. The block stores no flags and no condition codes; every TICK computes these
bits afresh from the phases (spec/10_state.md R17). 0 = `false` = positive, 1 = `true` = negative. -/

namespace Sys2Proof.Machine

open Sys2Proof

/-- `PSinePol` (R72): bit 15 of the phase. -/
def pSinePol (p : Word) : Polarity :=
  p.getLsbD 15

/-- `RingPol` (R81): the exclusive-or of the two polarities. -/
def ringPol (pM pS : Polarity) : Polarity :=
  pM ^^ pS

/-- The polarity leaving `FoldWrap` (R92): inverted when the scaled value is at least 256 and its bit 8 is set; bits
9 and above decide nothing (R97). -/
def foldPol (v0 : Nat) (p : Polarity) : Polarity :=
  if v0 ≥ 256 then (if v0.testBit 8 then !p else p) else p

end Sys2Proof.Machine
end

