-- ==== Sys2Proof/Machine/Fold.lean ====
section
/-! DEFINITION. The asymmetric wave-folder (spec/43_wave_folder.md): TICK step 8, literal arithmetic (R97). The
polarity that leaves it is `foldPol`. -/

namespace Sys2Proof.Machine

open Sys2Proof

/-- `FoldSelect` (R90): the factor for the ring modulator's polarity. -/
def foldSelect (p : Polarity) (wrapFactor : BitVec 9) (negWrapFactor : BitVec 8) : BitVec 9 :=
  if p = false then wrapFactor else negWrapFactor.setWidth 9

/-- `FoldScale` (R91): `((r * f) << 2) >> 8`, the left shift not truncated. -/
def foldScale (r : Magnitude) (f : BitVec 9) : Nat :=
  ((r.toNat * f.toNat) <<< 2) >>> 8

/-- The value leaving `FoldWrap` (R92): the low 8 bits of anything at or above 256. -/
def foldWrap (v0 : Nat) : BitVec 8 :=
  BitVec.ofNat 8 (if v0 ≥ 256 then v0 &&& 255 else v0)

/-- `FoldReflect` (R93): values above 127 fold back about it. -/
def foldReflect (v1 : BitVec 8) : Magnitude :=
  if v1.toNat > 127 then BitVec.ofNat 8 (127 - (v1.toNat &&& 127)) else v1

end Sys2Proof.Machine
end

