-- ==== Sys2Proof/Machine/Output.lean ====
section
/-! DEFINITION. Output conversion (spec/44_pwm_output.md R100): TICK step 9. Emission, step 1, is `emit`. The model
stops at the duty latch and the trace (R106). -/

namespace Sys2Proof.Machine

open Sys2Proof

/-- `OutConv` (R100): negative codes run from 127 down, positive codes from 128 up. -/
def outConv (v : Magnitude) (negative : Polarity) : Sample :=
  if negative then 127 - v else 128 + v

end Sys2Proof.Machine
end

