-- ==== Sys2Proof/Machine/PhaseBank.lean ====
section
/-! DEFINITION. The phase accumulator bank (spec/40_phase_accumulators.md): TICK steps 2, 3 and 5. -/

namespace Sys2Proof.Machine

open Sys2Proof

/-- `PhaseAdvance` (R60): the sum modulo 65536, the carry discarded. -/
def phaseAdvance (masterPhase pitchIncrement : Word) : Word :=
  BitVec.ofNat 16 ((masterPhase.toNat + pitchIncrement.toNat) % 65536)

/-- `Slew` (R62): one unit toward the target while they differ; the comparisons are unsigned on 16 bits. -/
def slew (current target : Word) : Word :=
  if current < target then current + 1
  else if current > target then current - 1
  else current

/-- `SlavePhase` (R64): the exact product shifted right by 8, plus the master phase, modulo 65536. A wire: nothing
stores it (R15). -/
def slavePhase (m c : Word) : Word :=
  BitVec.ofNat 16 ((((m.toNat * c.toNat) >>> 8) + m.toNat) % 65536)

end Sys2Proof.Machine
end

