-- ==== Sys2Proof/Machine/Ring.lean ====
section
/-! DEFINITION. The magnitude half of the ring modulator (spec/42_ring_modulator.md): TICK step 7. Its polarity half
is `ringPol`. -/

namespace Sys2Proof.Machine

open Sys2Proof

/-- `RingMag` (R80): the product rescaled by `>> 8` and halved by `>> 1`, both truncating. -/
def ringMag (mM mS : Magnitude) : Magnitude :=
  BitVec.ofNat 8 (((mM.toNat * mS.toNat) >>> 8) >>> 1)

end Sys2Proof.Machine
end

