-- ==== Sys2Proof/Machine/Sine.lean ====
section
/-! DEFINITION. The magnitude half of the fixed-point sine approximator (spec/41_sine_approximator.md): TICK steps 4
and 6. Its polarity half is `pSinePol`. -/

namespace Sys2Proof.Machine

open Sys2Proof

/-- `x = ((P << 1) mod 65536) >> 8`, that is `P[14:7]` (R70): the shift is of 16 bits and drops bit 15. -/
def sineIndex (p : Word) : BitVec 8 :=
  ((p <<< 1) >>> 8).setWidth 8

/-- `PSINE[x] = ((x * ~x) << 2) >> 8` (R70, R71), the products exact. -/
def pSine (x : BitVec 8) : Magnitude :=
  BitVec.ofNat 8 (((x.toNat * (~~~x).toNat) <<< 2) >>> 8)

/-- `PSineMag` (R70). -/
def pSineMag (p : Word) : Magnitude :=
  pSine (sineIndex p)

end Sys2Proof.Machine
end

