-- ==== Sys2Proof/Machine/Tick.lean ====
section
/-! DEFINITION. The TICK event (spec/45_tick.md R110): the five units once, in the source's order. -/

namespace Sys2Proof.Machine

open Sys2Proof

/-- The wires of one TICK, under the names R110 and R114 give them. -/
structure Wires where
  m   : Word
  c   : Word
  mM  : Magnitude
  pM  : Polarity
  sp  : Word
  mS  : Magnitude
  pS  : Polarity
  r   : Magnitude
  p   : Polarity
  f   : BitVec 9
  v0  : Nat
  p'  : Polarity
  v1  : BitVec 8
  v   : Magnitude
  out : Sample
deriving DecidableEq, Repr

/-- Steps 2 to 9 of R110 as wires over the registers as they stood when the TICK began (R111). -/
def tickWires (x : Regs) : Wires :=
  let m := phaseAdvance x.masterPhase x.pitchIncrement
  let c := slew x.slaveOffsetCurrent x.slaveOffsetTarget
  let mM := pSineMag m
  let pM := pSinePol m
  let sp := slavePhase m c
  let mS := pSineMag sp
  let pS := pSinePol sp
  let r := ringMag mM mS
  let p := ringPol pM pS
  let f := foldSelect p x.wrapFactor x.negWrapFactor
  let v0 := foldScale r f
  let p' := foldPol v0 p
  let v1 := foldWrap v0
  let v := foldReflect v1
  { m, c, mM, pM, sp, mS, pS, r, p, f, v0, p', v1, v, out := outConv v p' }

/-- What steps 2, 3 and 9 store. -/
def storeWires (w : Wires) (x : Regs) : Regs :=
  { x with masterPhase := w.m, slaveOffsetCurrent := w.c, output := w.out }

/-- `TICK` (R110): the previous sample is emitted first, then the next one is computed. Defined in every state
(R113), one transition (R112). -/
def execTick (s : State) : Host.Outcome State Fault Refusal :=
  .next ((emit s).withRegs (storeWires (tickWires s.regs) (emit s).regs))

end Sys2Proof.Machine
end

