-- ==== Sys2Proof/Machine/Dispatch.lean ====
section
/-! DEFINITION. One arm per event: each calls its meaning. -/

namespace Sys2Proof.Machine

open Sys2Proof

def exec (i : Instr) (s : State) : Host.Outcome State Fault Refusal :=
  match i with
  | .tick => Sys2Proof.Machine.execTick s
  | .wrpi imm16 => Sys2Proof.Machine.execWrpi imm16 s
  | .wrwf wf9 nwf8 => Sys2Proof.Machine.execWrwf wf9 nwf8 s
  | .ldpitch cv10 knob10 => Sys2Proof.Machine.execLdpitch cv10 knob10 s
  | .lddetune k10 => Sys2Proof.Machine.execLddetune k10 s
  | .ldfold k10 => Sys2Proof.Machine.execLdfold k10 s
  | .reset => Sys2Proof.Machine.execReset s

end Sys2Proof.Machine
end

