-- ==== Sys2Proof/Machine/Step.lean ====
section
/-! DEFINITION. One step of the machine: one event word is consumed and its event takes place
(spec/20_memory.md R38, spec/30_encoding.md R45, R52). -/

namespace Sys2Proof.Machine

open Sys2Proof

/-- The state an outcome goes on in, changed. -/
def onNext (g : State → State) : Host.Outcome State Fault Refusal → Host.Outcome State Fault Refusal
  | .next s => .next (g s)
  | .fault r => .fault r
  | .refused r => .refused r

/-- One step. A reserved word is refused (R52); with no word waiting the block holds its registers (R144). -/
def step (s : State) : Host.Outcome State Fault Refusal :=
  match fetch s with
  | .idle => .next (idle s)
  | .refused w why => .refused (.invalidWord w why)
  | .event i t => onNext (afterEvent i) (exec i t)

/-- The instruction of `nbits` bits `w` becomes the next event word, ahead of those already waiting. -/
def State.withFetchWord (s : State) (nbits w : Nat) : State :=
  s.withEvents (BitVec.ofNat 24 (w % 2 ^ nbits) :: s.events)

end Sys2Proof.Machine
end

