-- ==== Sys2Proof/Safety.lean ====
section
/-! DEFINITION. What claims are stated in: the register invariants of spec/10_state.md R22, which words are reserved
(spec/30_encoding.md R49 to R51, from the word's fields as numbers, without the decoder), and which event sequences
are runs (spec/70_reset_and_hazards.md R151, R155). -/

namespace Sys2Proof

open Sys2Proof.Machine

/-- I1 to I3 of R22: the fold factors. -/
def Regs.FoldLegal (x : Regs) : Prop :=
  64 ≤ x.wrapFactor.toNat ∧ x.wrapFactor.toNat ≤ 511 ∧
  64 ≤ x.negWrapFactor.toNat ∧ x.negWrapFactor.toNat ≤ 255 ∧
  x.negWrapFactor.toNat ≤ x.wrapFactor.toNat

/-- I1 to I5 of R22; I6 holds by width. -/
def Regs.Legal (x : Regs) : Prop :=
  x.FoldLegal ∧ x.slaveOffsetTarget.toNat ≤ 1023 ∧ x.slaveOffsetCurrent.toNat ≤ 1023

/-- The invariant under `TORN_WRITES = atomic` (R22): the registers and `RESET_VALUES` are legal and no control
write is in flight. -/
def AtomicInv (s : State) : Prop :=
  s.params.tornWrites = .atomic ∧ s.halfWrites = [] ∧ s.params.resetValues.Legal ∧ s.regs.Legal

/-- The invariant under either value of `TORN_WRITES`: the registers are legal once the write in flight has landed,
and the slave offsets are in range even before. -/
def TornInv (s : State) : Prop :=
  s.params.resetValues.Legal ∧ (settle s).regs.Legal ∧ s.regs.slaveOffsetTarget.toNat ≤ 1023

/-- The words that are no event, by the numbers in their fields (R49, R50, R51). -/
def ReservedWord (w : EventWord) : Prop :=
  (w.toNat / 2 ^ 20 = 0x0 ∨ (0x7 ≤ w.toNat / 2 ^ 20 ∧ w.toNat / 2 ^ 20 ≤ 0xE)) ∨
  ((w.toNat / 2 ^ 20 = 0x1 ∨ w.toNat / 2 ^ 20 = 0xF) ∧ w.toNat % 2 ^ 20 ≠ 0) ∨
  (w.toNat / 2 ^ 20 = 0x2 ∧ w.toNat / 2 ^ 16 % 16 ≠ 0) ∨
  (w.toNat / 2 ^ 20 = 0x3 ∧ w.toNat / 2 ^ 17 % 8 ≠ 0) ∨
  ((w.toNat / 2 ^ 20 = 0x5 ∨ w.toNat / 2 ^ 20 = 0x6) ∧ w.toNat / 2 ^ 10 % 2 ^ 10 ≠ 0) ∨
  (w.toNat / 2 ^ 20 = 0x3 ∧
    ¬ (64 ≤ w.toNat % 2 ^ 9 ∧ 64 ≤ w.toNat / 2 ^ 9 % 2 ^ 8 ∧ w.toNat / 2 ^ 9 % 2 ^ 8 ≤ w.toNat % 2 ^ 9))

/-- An event sequence is a run (R151, R155): its first word is RESET and it contains no reserved word. -/
def IsRun (ws : List EventWord) : Prop :=
  ws.head? = some (encode .reset) ∧ ∀ w ∈ ws, ¬ ReservedWord w

/-- `k` steps of the machine, up to the first refusal. -/
def runFor (k : Nat) (s : State) : Host.Outcome State Fault Refusal :=
  core.run k s

/-- The machine after `k` steps goes on in `t`. -/
def ReachesIn (k : Nat) (s t : State) : Prop :=
  runFor k s = .next t

/-- What a control event that writes `x` does: once what is in flight has landed, the registers hold the written
values and the others what they held after an earlier write in flight had landed (R39, log entries 3 and 14); engine
registers, trace, events and parameters stay. Under `atomic` the write lands at once. -/
def ControlEffect (x : Regs → Regs) (s t : State) : Prop :=
  (settle t).regs = x (settle s).regs ∧
  t.regs.masterPhase = s.regs.masterPhase ∧ t.regs.slaveOffsetCurrent = s.regs.slaveOffsetCurrent ∧
  t.regs.output = s.regs.output ∧ t.regs.pwmDuty = s.regs.pwmDuty ∧
  t.trace = s.trace ∧ t.events = s.events ∧ t.params = s.params ∧
  (s.params.tornWrites = .atomic → t.halfWrites = [])

/-- The event words of some events. -/
def words (is : List Instr) : List EventWord :=
  is.map encode

/-- The registers an event writes, RESET apart (R23, R110, R120 to R124). -/
def Instr.writes : Instr → List Reg
  | .tick => [.masterPhase, .slaveOffsetCurrent, .output, .pwmDuty]
  | .wrpi _ => [.pitchIncrement]
  | .wrwf _ _ => [.wrapFactor, .negWrapFactor]
  | .ldpitch _ _ => [.pitchIncrement]
  | .lddetune _ => [.slaveOffsetTarget]
  | .ldfold _ => [.wrapFactor, .negWrapFactor]
  | .reset => [.masterPhase, .slaveOffsetCurrent, .output, .pwmDuty,
      .pitchIncrement, .slaveOffsetTarget, .wrapFactor, .negWrapFactor]

end Sys2Proof
end

