-- ==== Sys2Proof/Certificates/Slice0/Obligations.lean ====
section
/-! DEFINITION. The statements about the model, each from the spec's numbered rules. Nothing is proved here. -/

open Sys2Proof Sys2Proof.Machine

/-! ## Encoding and the step -/

/-- The spec's inference R57: the words and the events stand for each other, and no word has two rows' fixed bits. -/
def Obligations.DecodeAndEncodeAgree : Prop :=
  (∀ i : Instr, i.wellFormed = true → decode (encode i) = .event i) ∧
  (∀ (w : EventWord) (i : Instr), decode w = .event i → encode i = w ∧ i.wellFormed = true) ∧
  opcodeTable.Pairwise (fun a b => ∀ w : EventWord, ¬ (a.fits w = true ∧ b.fits w = true))

/-- Words written out from the layouts of R46 and R54 decode to the events they stand for. -/
def Obligations.WrittenOutWordsDecode : Prop :=
  decode 0b000100000000000000000000#24 = .event .tick ∧
  decode 0b111100000000000000000000#24 = .event .reset ∧
  decode 0b001000000000001111101000#24 = .event (.wrpi 1000) ∧
  decode 0b001100001000000001000000#24 = .event (.wrwf 64 64) ∧
  decode 0b001100011111111111111111#24 = .event (.wrwf 511 255) ∧
  decode 0b010011001000000000000000#24 = .event (.ldpitch 0 800) ∧
  decode 0b010100000000001111111111#24 = .event (.lddetune 1023) ∧
  decode 0b011000000000001101111110#24 = .event (.ldfold 894)

/-- A word whose bits are a table row's decodes to that row's event, where its operands are among those R51 admits;
any other word is `invalid`. -/
def Obligations.DecodeAcceptsExactlyTheTablesWords : Prop :=
  ∀ w : EventWord,
    (∃ i, decode w = .event i ∧ i.row.fits w = true ∧ i.row ∈ opcodeTable) ∨
    ((∃ why, decode w = .invalid why) ∧
      ∀ row ∈ opcodeTable, row.fits w = true →
        row = (Instr.wrwf 0 0).row ∧ legalFoldPair (w.extractLsb' 0 9) (w.extractLsb' 9 8) = false)

/-- A step takes the next event word and runs its event (R45): with no control write in flight the step IS `exec`. The
model's choices: the rest of a torn write lands right after the TICK (log entry 3), while a control event or RESET
finds it as it is and lands it first or cuts it off (log entries 14 and 9). -/
def Obligations.StepRunsTheDecodedEvent : Prop :=
  ∀ (s : State) (w : EventWord) (rest : List EventWord) (i : Instr),
    s.events = w :: rest → decode w = .event i →
    (i ≠ .tick → step s = exec i { s with events := rest }) ∧
    (i = .tick → ∃ t, exec .tick { s with events := rest } = .next t ∧ step s = .next (settle t)) ∧
    (s.halfWrites = [] → i = .tick → step s = exec .tick { s with events := rest })

/-- A step refuses exactly the words R49 to R51 reserve (R52, log entry 8) and goes on in every other state: with an
event ahead by the spec's inference R131, with no word ahead by the model's choice (log entry 5). -/
def Obligations.ReservedWordsAreRefusedAllElseRuns : Prop :=
  ∀ s : State,
    ((∃ w rest, s.events = w :: rest ∧ ReservedWord w ∧ ∃ why, step s = .refused (.invalidWord w why)) ∨
      ((∀ w rest, s.events = w :: rest → ¬ ReservedWord w) ∧ ∃ t, step s = .next t))

/-- With no event waiting the block holds engine registers and trace (R144; that a step may find no event is the model's
choice, log entry 5); what is left of a control write lands (log entries 3 and 5), so that after it the registers hold
the written values; with nothing in flight the step changes nothing at all. -/
def Obligations.IdleBlockHoldsItsState : Prop :=
  (∀ s : State, s.events = [] → ∃ t, step s = .next t ∧
    t.regs.masterPhase = s.regs.masterPhase ∧ t.regs.slaveOffsetCurrent = s.regs.slaveOffsetCurrent ∧
    t.regs.output = s.regs.output ∧ t.regs.pwmDuty = s.regs.pwmDuty ∧ t.trace = s.trace ∧
    t.halfWrites = [] ∧ t.events = [] ∧ t.tears = s.tears ∧ t.params = s.params ∧
    (s.halfWrites = [] → t = s)) ∧
  (∀ (s : State) (cw : ControlWrite), s.events = [] → ∃ t, step (controlWrite cw s) = .next t ∧
    t.regs = cw.whole (settle s).regs)

/-- A step consumes one event word, and no event changes the parameters of R6. -/
def Obligations.StepConsumesOneWordAndKeepsParams : Prop :=
  ∀ s t : State, step s = .next t → t.events = s.events.tail ∧ t.params = s.params

/-! ## TICK -/

/-- R60, R62, R102: what TICK does to phase, offset, duty latch and trace, in every state. -/
def Obligations.TickAdvancesSlewsAndEmits : Prop :=
  ∀ s : State, ∃ t, exec .tick s = .next t ∧
    t.regs.masterPhase.toNat = (s.regs.masterPhase.toNat + s.regs.pitchIncrement.toNat) % 65536 ∧
    t.regs.slaveOffsetCurrent.toNat =
      (if s.regs.slaveOffsetCurrent.toNat < s.regs.slaveOffsetTarget.toNat
        then s.regs.slaveOffsetCurrent.toNat + 1
        else if s.regs.slaveOffsetCurrent.toNat > s.regs.slaveOffsetTarget.toNat
        then s.regs.slaveOffsetCurrent.toNat - 1
        else s.regs.slaveOffsetCurrent.toNat) ∧
    t.regs.pwmDuty = s.regs.output ∧
    t.trace = s.trace ++ [s.regs.output]

/-- R110: the nine steps over naturals, written here from the rule without the model's units; in every state (R113);
and everything TICK leaves unchanged. -/
def Obligations.TickComputesTheNineSteps : Prop :=
  ∀ s : State,
    let M := (s.regs.masterPhase.toNat + s.regs.pitchIncrement.toNat) % 65536
    let C0 := s.regs.slaveOffsetCurrent.toNat
    let T := s.regs.slaveOffsetTarget.toNat
    let C := if C0 < T then C0 + 1 else if C0 > T then C0 - 1 else C0
    let xM := M / 128 % 256
    let mM := xM * (255 - xM) / 64
    let pM := M / 32768
    let SP := (M * C / 256 + M) % 65536
    let xS := SP / 128 % 256
    let mS := xS * (255 - xS) / 64
    let pS := SP / 32768
    let r := mM * mS / 256 / 2
    let p := (pM + pS) % 2
    let f := if p = 0 then s.regs.wrapFactor.toNat else s.regs.negWrapFactor.toNat
    let v0 := r * f * 4 / 256
    let p' := if 256 ≤ v0 ∧ v0 / 256 % 2 = 1 then 1 - p else p
    let v1 := if 256 ≤ v0 then v0 % 256 else v0
    let v := if 127 < v1 then 127 - v1 % 128 else v1
    ∃ t, exec .tick s = .next t ∧
      t.regs.pwmDuty = s.regs.output ∧
      t.trace = s.trace ++ [s.regs.output] ∧
      t.regs.masterPhase.toNat = M ∧
      t.regs.slaveOffsetCurrent.toNat = C ∧
      t.regs.output.toNat = (if p' = 1 then 127 - v else 128 + v) ∧
      t.regs.pitchIncrement = s.regs.pitchIncrement ∧ t.regs.slaveOffsetTarget = s.regs.slaveOffsetTarget ∧
      t.regs.wrapFactor = s.regs.wrapFactor ∧ t.regs.negWrapFactor = s.regs.negWrapFactor ∧
      t.halfWrites = s.halfWrites ∧ t.events = s.events ∧ t.tears = s.tears ∧ t.params = s.params

/-- The spec's inference R114: the ranges of the wires of a TICK, in states that meet R22. -/
def Obligations.WiresStayInTheirRanges : Prop :=
  ∀ x : Regs, x.Legal →
    let w := tickWires x
    w.m.toNat ≤ 65535 ∧ w.sp.toNat ≤ 65535 ∧ w.c.toNat ≤ 1023 ∧ w.m.toNat * w.c.toNat ≤ 67042305 ∧
    (sineIndex w.m).toNat ≤ 255 ∧ (sineIndex w.sp).toNat ≤ 255 ∧
    (sineIndex w.m).toNat * (255 - (sineIndex w.m).toNat) ≤ 16256 ∧
    (sineIndex w.sp).toNat * (255 - (sineIndex w.sp).toNat) ≤ 16256 ∧
    w.mM.toNat ≤ 254 ∧ w.mS.toNat ≤ 254 ∧ w.mM.toNat * w.mS.toNat ≤ 64516 ∧
    w.r.toNat ≤ 126 ∧ 64 ≤ w.f.toNat ∧ w.f.toNat ≤ 511 ∧
    w.r.toNat * w.f.toNat ≤ 64386 ∧ (w.r.toNat * w.f.toNat) <<< 2 ≤ 257544 ∧
    w.v0 ≤ 1006 ∧ w.v1.toNat ≤ 255 ∧ w.v.toNat ≤ 127 ∧ w.out.toNat ≤ 255

/-- The spec's inference R61: over any events without RESET the phase ends at the sum of the increments the TICKs
found, modulo 65536; with a constant increment `i > 0` the phase comes back to where it was exactly at the multiples
of `65536 / gcd(i, 65536)` TICKs. -/
def Obligations.MasterPhaseIsTheSumOfIncrements : Prop :=
  (∀ (s : State) (is : List Instr) (rest : List EventWord),
    (∀ i ∈ is, i.wellFormed = true ∧ i ≠ .reset) → s.events = words is ++ rest →
    ∃ f : Nat → State, f 0 = s ∧ (∀ k < is.length, step (f k) = .next (f (k + 1))) ∧
      let ticks := (List.range is.length).filter (fun k => is[k]? == some .tick)
      (f is.length).regs.masterPhase.toNat =
        (s.regs.masterPhase.toNat + (ticks.map (fun k => (f k).regs.pitchIncrement.toNat)).sum) % 65536) ∧
  (∀ (s : State) (n : Nat) (rest : List EventWord),
    s.halfWrites = [] → s.events = words (runEvents n) ++ rest → 0 < s.regs.pitchIncrement.toNat →
    ∃ t, ReachesIn n s t ∧
      (t.regs.masterPhase = s.regs.masterPhase ↔ 65536 / Nat.gcd s.regs.pitchIncrement.toNat 65536 ∣ n))

/-- The spec's inference R63: over any events that leave the target alone, n of them TICKs, the distance to the target
shrinks by n, down to 0, and the offset stays between where it was and the target; so it does with a control write in
flight, if that write leaves the target alone too. From the default reset a reading of 1023 is reached after 1023
TICKs. -/
def Obligations.SlewConvergesWithoutOvershoot : Prop :=
  (∀ (s : State) (is : List Instr) (rest : List EventWord),
    (∀ i ∈ is, i.wellFormed = true ∧ i ≠ .reset ∧ ∀ k10, i ≠ .lddetune k10) →
    (settle s).regs.slaveOffsetTarget = s.regs.slaveOffsetTarget → s.events = words is ++ rest →
    ∃ t, ReachesIn is.length s t ∧ t.regs.slaveOffsetTarget = s.regs.slaveOffsetTarget ∧
      (Int.natAbs ((t.regs.slaveOffsetCurrent.toNat : Int) - s.regs.slaveOffsetTarget.toNat) =
        Int.natAbs ((s.regs.slaveOffsetCurrent.toNat : Int) - s.regs.slaveOffsetTarget.toNat) - is.count .tick) ∧
      min s.regs.slaveOffsetCurrent.toNat s.regs.slaveOffsetTarget.toNat ≤ t.regs.slaveOffsetCurrent.toNat ∧
      t.regs.slaveOffsetCurrent.toNat ≤ max s.regs.slaveOffsetCurrent.toNat s.regs.slaveOffsetTarget.toNat) ∧
  (∃ t, ReachesIn 1024 (State.reset.withEvents (words (.lddetune 1023 :: runEvents 1023))) t ∧
    t.regs.slaveOffsetCurrent.toNat = 1023)

/-- The spec's inference R115: with the increment 0 and the offset at its target, TICK changes neither phase nor
offset and recomputes one output; from the second TICK on the duty is that output and the trace repeats it. RESET ;
RUN n on the default parameters gives 128 n times and an unchanged state. -/
def Obligations.RestStateRepeatsOneSample : Prop :=
  (∀ (s : State) (n : Nat) (rest : List EventWord),
    s.halfWrites = [] → s.regs.pitchIncrement = 0 → s.regs.slaveOffsetCurrent = s.regs.slaveOffsetTarget →
    s.events = words (runEvents (n + 1)) ++ rest →
    ∃ o : Sample, ∃ t, ReachesIn (n + 1) s t ∧ o = (tickWires s.regs).out ∧
      t.regs.masterPhase = s.regs.masterPhase ∧ t.regs.slaveOffsetCurrent = s.regs.slaveOffsetCurrent ∧
      t.regs.output = o ∧ (0 < n → t.regs.pwmDuty = o) ∧
      t.trace = s.trace ++ s.regs.output :: List.replicate n o) ∧
  (∀ n : Nat, ∃ t, ReachesIn (n + 1) (State.reset.withEvents (words (.reset :: runEvents n))) t ∧
    t.regs = State.reset.regs ∧ t.trace = List.replicate n 128)

/-- R116: the source's example, and the phase origin itself. -/
def Obligations.SourceExampleGives129 : Prop :=
  ∀ s : State,
    (s.regs = ⟨0, 1, 128, 128, 1000, 1, 64, 64⟩ →
      ∃ t, exec .tick s = .next t ∧ t.regs = ⟨1000, 1, 129, 128, 1000, 1, 64, 64⟩) ∧
    (s.regs = ⟨0, 1, 128, 128, 0, 1, 64, 64⟩ →
      ∃ t, exec .tick s = .next t ∧ t.regs = ⟨0, 1, 128, 128, 0, 1, 64, 64⟩)

/-- The next sample depends on the phase and offset TICK arrives at and on the fold factors, on nothing else: the
slave never runs free (R65, R15). -/
def Obligations.OutputIsAFunctionOfPhaseAndOffset : Prop :=
  ∀ s₁ s₂ : State, ∃ t₁ t₂, exec .tick s₁ = .next t₁ ∧ exec .tick s₂ = .next t₂ ∧
    (t₁.regs.masterPhase = t₂.regs.masterPhase → t₁.regs.slaveOffsetCurrent = t₂.regs.slaveOffsetCurrent →
      s₁.regs.wrapFactor = s₂.regs.wrapFactor → s₁.regs.negWrapFactor = s₂.regs.negWrapFactor →
      t₁.regs.output = t₂.regs.output)

/-! ## The units of TICK -/

/-- R70: the magnitude is `floor(x * (255 - x) / 64)` with `x = P[14:7]`, at most 254, and 254 only at the two
middle indexes. -/
def Obligations.SineMagnitudeIsTheParabola : Prop :=
  ∀ P : Word,
    let x := P.toNat / 128 % 256
    (pSineMag P).toNat = x * (255 - x) / 64 ∧ (pSineMag P).toNat ≤ 254 ∧
    ((pSineMag P).toNat = 254 ↔ x = 127 ∨ x = 128) ∧ ((x = 0 ∨ x = 255) → pSineMag P = 0)

/-- The spec's inferences R73 and R74: the half-cycles differ only in polarity; a half-cycle is symmetric and rises up
to its middle. -/
def Obligations.SineIsSymmetric : Prop :=
  (∀ P : Word, pSineMag P = pSineMag (P % 32768) ∧ (pSinePol P = true ↔ 32768 ≤ P.toNat) ∧
    pSinePol (P % 32768) = false) ∧
  (∀ P : Word, pSineMag P = pSineMag (P ^^^ 0x7F80)) ∧
  (∀ x y : BitVec 8, x ≤ y → y.toNat ≤ 127 → pSine x ≤ pSine y) ∧
  (pSine 0 = 0 ∧ pSine 127 = 254 ∧ pSine 128 = 254 ∧ pSine 255 = 0)

/-- R64: the slave phase and its corner cases; that only bits [23:8] of the product reach it is the spec's inference. -/
def Obligations.SlavePhaseIsHardSynced : Prop :=
  ∀ M C : Word,
    (slavePhase M C).toNat = (M.toNat * C.toNat / 256 + M.toNat) % 65536 ∧
    (slavePhase M C).toNat = (M.toNat * C.toNat % 2 ^ 24 / 256 + M.toNat) % 65536 ∧
    slavePhase M 0 = M ∧ slavePhase 0 C = 0 ∧ (slavePhase M 256).toNat = 2 * M.toNat % 65536

/-- R80, R81: the two magnitudes multiplied, rescaled and halved, both cut off; the polarities exclusive-or'ed. -/
def Obligations.RingModulatorMultipliesAndXors : Prop :=
  ∀ (mM mS : Magnitude) (pM pS : Polarity), mM.toNat ≤ 254 → mS.toNat ≤ 254 →
    (ringMag mM mS).toNat = mM.toNat * mS.toNat / 256 / 2 ∧ (ringMag mM mS).toNat ≤ 126 ∧
    (mM.toNat * mS.toNat < 512 → ringMag mM mS = 0) ∧
    (ringPol pM pS = true ↔ pM ≠ pS)

/-- The spec's inference R82: the ring modulator is the product of the two signed values, divided by 512 toward zero. -/
def Obligations.RingModulatorTruncatesTheSignedProduct : Prop :=
  ∀ (mM mS : Magnitude) (pM pS : Polarity), mM.toNat ≤ 254 → mS.toNat ≤ 254 →
    let signed : Polarity → Nat → Int := fun p m => if p then -(m : Int) else m
    signed (ringPol pM pS) (ringMag mM mS).toNat = Int.tdiv (signed pM mM.toNat * signed pS mS.toNat) 512

/-- The spec's inference R83, as far as it holds at every fold factor: at unison the ring modulator squares the
master. That the output never goes below the midpoint holds while nothing folds over, so for WrapFactor up to 130 (log
entry 7). -/
def Obligations.UnisonSquaresTheMaster : Prop :=
  ∀ x : Regs, x.slaveOffsetCurrent = 0 → x.slaveOffsetTarget = 0 →
    let w := tickWires x
    w.sp = w.m ∧ w.mS = w.mM ∧ w.pS = w.pM ∧ w.p = false ∧
    w.r.toNat = w.mM.toNat * w.mM.toNat / 512 ∧
    (x.wrapFactor.toNat ≤ 130 → 128 ≤ w.out.toNat)

/-- R92, R93: the wrap keeps the low 8 bits of what reaches 256 and there bit 8 flips the polarity; the reflect leaves
0 to 127 as it is and folds the rest about 127. -/
def Obligations.FoldWrapsAndReflects : Prop :=
  (∀ (v0 : Nat) (p : Polarity),
    (foldWrap v0).toNat = (if 256 ≤ v0 then v0 % 256 else v0) ∧
    foldPol v0 p = (if 256 ≤ v0 ∧ v0 / 256 % 2 = 1 then !p else p)) ∧
  ∀ v1 : BitVec 8,
    (v1.toNat ≤ 127 → foldReflect v1 = v1) ∧ (127 < v1.toNat → (foldReflect v1).toNat = 127 - v1.toNat % 128)

/-- The spec's inference R95 with the period R92 gives: as the scaled value grows the fold is a triangle of period 512
whose second half has the other polarity, and neighbouring values fold to neighbouring magnitudes. -/
def Obligations.FoldIsARepeatingTriangle : Prop :=
  ∀ (v0 : Nat) (p : Polarity),
    let v := (foldReflect (foldWrap v0)).toNat
    let p' := foldPol v0 p
    (v0 % 512 ≤ 127 → p' = p ∧ v = v0 % 512) ∧
    (128 ≤ v0 % 512 → v0 % 512 ≤ 255 → p' = p ∧ v = 255 - v0 % 512) ∧
    (256 ≤ v0 % 512 → v0 % 512 ≤ 383 → p' = !p ∧ v = v0 % 512 - 256) ∧
    (384 ≤ v0 % 512 → p' = !p ∧ v = 511 - v0 % 512) ∧
    v ≤ (foldReflect (foldWrap (v0 + 1))).toNat + 1 ∧ (foldReflect (foldWrap (v0 + 1))).toNat ≤ v + 1

/-- R90 and R91: the factor is that of the ring modulator's polarity and scales as R91 writes it. The spec's inferences:
that this is `floor(r * f / 64)`, and R91's bounds 1006 and 502. R96: nothing else in the fold tells the polarities
apart. -/
def Obligations.FoldDiffersByFactorOnly : Prop :=
  ∀ (r : Magnitude) (p : Polarity) (W : BitVec 9) (N : BitVec 8),
    (foldSelect p W N).toNat = (if p then N.toNat else W.toNat) ∧
    (∀ f : BitVec 9, foldScale r f = r.toNat * f.toNat * 4 / 256 ∧ foldScale r f = r.toNat * f.toNat / 64) ∧
    (r.toNat ≤ 126 → foldScale r (foldSelect p W N) ≤ (if p then 502 else 1006)) ∧
    ∀ v0 : Nat, foldPol v0 p = (foldPol v0 false ^^ p)

/-- R100: what TICK writes to Output, from the folded magnitude and the polarity that left the fold: negative codes
run from 127 down, positive codes from 128 up, and the magnitude leaves no code out of range. -/
def Obligations.OutputCodesLieAboutTheMidpoint : Prop :=
  ∀ s : State, ∃ t, exec .tick s = .next t ∧
    let w := tickWires s.regs
    w.v.toNat ≤ 127 ∧ t.regs.output.toNat = (if w.p' then 127 - w.v.toNat else 128 + w.v.toNat)

/-- The spec's inference R101: the output code is the offset-binary code of the signed sample, and a bijection. -/
def Obligations.OutputConversionIsOffsetBinary : Prop :=
  (∀ (v : Magnitude) (p : Polarity), v.toNat ≤ 127 →
    (outConv v p).getLsbD 7 = !p ∧
    ((outConv v p).toNat : Int) = 128 + (if p then -(v.toNat : Int) - 1 else v.toNat)) ∧
  (∀ o : Sample, ∃ v : Magnitude, ∃ p : Polarity, v.toNat ≤ 127 ∧ outConv v p = o ∧
    ∀ (v' : Magnitude) (p' : Polarity), v'.toNat ≤ 127 → outConv v' p' = o → v' = v ∧ p' = p)

/-! ## The control events -/

/-- R120: every 16-bit value is written. Where a torn write ends is R39 with log entry 3; that an earlier write in
flight lands first is log entry 14. -/
def Obligations.WrpiWritesThePitchIncrement : Prop :=
  ∀ (imm16 : BitVec 16) (s : State), ∃ t, exec (.wrpi imm16) s = .next t ∧
    ControlEffect (fun x => { x with pitchIncrement := imm16 }) s t

/-- R121: the pair is written for the operands R51 admits. That `exec` refuses all others is R52 with log entry 8; where
a torn write ends is R39 with log entry 3; that an earlier write in flight lands first is log entry 14. -/
def Obligations.WrwfWritesTheFoldPair : Prop :=
  ∀ (wf9 : BitVec 9) (nwf8 : BitVec 8) (s : State),
    (64 ≤ wf9.toNat ∧ 64 ≤ nwf8.toNat ∧ nwf8.toNat ≤ wf9.toNat →
      ∃ t, exec (.wrwf wf9 nwf8) s = .next t ∧
        ControlEffect (fun x => { x with wrapFactor := wf9, negWrapFactor := nwf8 }) s t) ∧
    (¬ (64 ≤ wf9.toNat ∧ 64 ≤ nwf8.toNat ∧ nwf8.toNat ≤ wf9.toNat) →
      exec (.wrwf wf9 nwf8) s = .refused .reservedOperands)

/-- R122: the effective reading and the lookup; that a larger effective reading gives no smaller increment is the spec's
inference. Where a torn write ends is R39 with log entry 3; that an earlier write in flight lands first is log
entry 14. -/
def Obligations.LdpitchLooksUpTheEffectiveReading : Prop :=
  (∀ (cv10 knob10 : Reading) (s : State), ∃ t, exec (.ldpitch cv10 knob10) s = .next t ∧
    ∃ eff : Reading,
      eff.toNat = min (cv10.toNat + (if 600 < knob10.toNat then knob10.toNat - 600 else 0)) 1023 ∧
      ControlEffect (fun x => { x with pitchIncrement := Config.octaveLut.entry eff }) s t) ∧
  (∀ (cv10 knob10 cv10' knob10' : Reading) (s : State),
    effectivePitch cv10 knob10 ≤ effectivePitch cv10' knob10' →
    ∃ t t', exec (.ldpitch cv10 knob10) s = .next t ∧ exec (.ldpitch cv10' knob10') s = .next t' ∧
      (settle t).regs.pitchIncrement ≤ (settle t').regs.pitchIncrement)

/-- R123: the reading, zero-extended. Where a torn write ends is R39 with log entry 3; that an earlier write in flight
lands first is log entry 14. -/
def Obligations.LddetuneWritesTheTarget : Prop :=
  ∀ (k10 : Reading) (s : State), ∃ t, exec (.lddetune k10) s = .next t ∧
    ∃ v : Word, v.toNat = k10.toNat ∧ ControlEffect (fun x => { x with slaveOffsetTarget := v }) s t

/-- R124: both factors and the corners of the reading's range; the ranges of the factors are the spec's inference. Where
a torn write ends is R39 with log entry 3; that an earlier write in flight lands first is log entry 14. -/
def Obligations.LdfoldWritesBothFactors : Prop :=
  ∀ (k10 : Reading) (s : State), ∃ t, exec (.ldfold k10) s = .next t ∧
    ∃ (w : BitVec 9) (n : BitVec 8),
      w.toNat = min (64 + k10.toNat / 2) 511 ∧ n.toNat = max (w.toNat / 2) 64 ∧
      ControlEffect (fun x => { x with wrapFactor := w, negWrapFactor := n }) s t ∧
      64 ≤ w.toNat ∧ w.toNat ≤ 511 ∧ 64 ≤ n.toNat ∧ n.toNat ≤ 255 ∧ n.toNat ≤ w.toNat ∧
      (w.toNat = 511 ↔ 894 ≤ k10.toNat) ∧ (64 < n.toNat ↔ 132 ≤ k10.toNat)

/-- Under `bytewise` a control write uses up one entry of the list that says how writes tear, under `atomic` none (that
the platform's choices are such a list is the model's choice, log entry 3). -/
def Obligations.ControlWritesUseOneTear : Prop :=
  ∀ (i : Instr) (s : State), i.isControl = true → i.wellFormed = true →
    ∃ t, exec i s = .next t ∧ (s.params.tornWrites = .atomic → t.tears = s.tears) ∧
      (s.params.tornWrites = .bytewise → t.tears = s.tears.tail)

/-- Under `atomic` writes, presenting the same control event twice leaves the same state as presenting it once (the
spec's inference in R36). -/
def Obligations.ControlEventsAreIdempotent : Prop :=
  ∀ (i : Instr) (s : State), i.isControl = true → i.wellFormed = true → s.params.tornWrites = .atomic →
    ∃ t, exec i s = .next t ∧ exec i t = .next t

/-- A control event computes each value from its operand alone (R23): what it writes does not depend on any
register. -/
def Obligations.ControlEventsReadNoRegister : Prop :=
  ∀ (i : Instr) (s : State) (x : Regs), i.isControl = true → i.wellFormed = true →
    s.params.tornWrites = .atomic → s.halfWrites = [] →
    ∃ t t', exec i s = .next t ∧ exec i { s with regs := x } = .next t' ∧
      (∀ r ∈ i.writes, r.value t.regs = r.value t'.regs) ∧
      (∀ r, r ∉ i.writes → r.value t'.regs = r.value x)

/-- No event writes a register that is not its own (R23, R139), and the engine's and the sampler's registers have one
writer each. -/
def Obligations.EventsWriteOnlyTheirOwnersRegisters : Prop :=
  (∀ (i : Instr) (s t : State), exec i s = .next t → s.halfWrites = [] →
    ∀ r, r ∉ i.writes → r.value t.regs = r.value s.regs) ∧
  (∀ r, r ∈ Instr.tick.writes ↔ r.owner = .engine) ∧
  (∀ (i : Instr) (r : Reg), i.isControl = true → r ∈ i.writes → r.owner = .sampler)

/-- No event reads `PwmDuty` (R23): a run from a state with another duty code is the same run, but for the duty
latch itself until it is next written. -/
def Obligations.NoEventReadsPwmDuty : Prop :=
  ∀ (s t : State) (d : Sample), step s = .next t →
    ∃ t' d', step { s with regs := { s.regs with pwmDuty := d } } = .next t' ∧
      t' = { t with regs := { t.regs with pwmDuty := d' } } ∧ (d' = d ∨ d' = t.regs.pwmDuty)

/-- One poll of the sampler, with no TICK inside, brings all four control registers to the readings (R55, R125). -/
def Obligations.PollSetsAllControlRegisters : Prop :=
  ∀ (s : State) (cv pk dk fk : Reading) (rest : List EventWord),
    s.params.tornWrites = .atomic → s.halfWrites = [] →
    s.events = words (pollEvents cv pk dk fk) ++ rest →
    ReachesIn 3 s { s with
      events := rest
      regs := { s.regs with
        pitchIncrement := Config.octaveLut.entry (effectivePitch cv pk)
        slaveOffsetTarget := detuneTarget dk
        wrapFactor := foldWrapFactor fk
        negWrapFactor := foldNegWrapFactor (foldWrapFactor fk) } }

/-! ## Torn writes -/

/-- R39 (how tears are chosen is log entry 3) for a pitch write, raw or conditioned, followed by a TICK: the TICK reads
the new value, or, on a platform that tears, one half of it beside the other half of the old value; it never reads
anything else, each of these happens under some tear, and afterwards the register holds the event's value. The old
value is the one after an earlier write in flight has landed (log entry 14). -/
def Obligations.TornPitchWriteIsOldNewOrMixed : Prop :=
  ∀ (s : State) (i : Instr) (v : Word) (rest : List EventWord),
    (i = .wrpi v ∨ ∃ cv10 knob10, i = .ldpitch cv10 knob10 ∧ v = Config.octaveLut.entry (effectivePitch cv10 knob10)) →
    s.events = encode i :: encode .tick :: rest →
    let old := (settle s).regs.pitchIncrement
    let lowFirst := old.extractLsb' 8 8 ++ v.extractLsb' 0 8
    let highFirst := v.extractLsb' 8 8 ++ old.extractLsb' 0 8
    (∃ a b, step s = .next a ∧ step a = .next b ∧
      (a.regs.pitchIncrement = v ∨
        (s.params.tornWrites = .bytewise ∧
          (a.regs.pitchIncrement = lowFirst ∨ a.regs.pitchIncrement = highFirst))) ∧
      b.regs.masterPhase.toNat = (s.regs.masterPhase.toNat + a.regs.pitchIncrement.toNat) % 65536 ∧
      b.regs.pitchIncrement = v ∧ b.halfWrites = []) ∧
    (s.params.tornWrites = .bytewise → ∀ seen ∈ [v, lowFirst, highFirst],
      ∃ tear a, step { s with tears := [tear] } = .next a ∧ a.regs.pitchIncrement = seen)

/-- R39 (how tears are chosen is log entry 3) for a detune write followed by a TICK: the TICK slews toward the new
target, or, on a platform that tears, toward one half of it beside the other half of the old target, each of these
under some tear, and afterwards the register holds the reading. The old target is the one after an earlier write in
flight has landed (log entry 14). -/
def Obligations.TornDetuneWriteIsOldNewOrMixed : Prop :=
  ∀ (s : State) (k10 : Reading) (rest : List EventWord),
    s.events = encode (.lddetune k10) :: encode .tick :: rest →
    let v : Word := k10.setWidth 16
    let old := (settle s).regs.slaveOffsetTarget
    let lowFirst := old.extractLsb' 8 8 ++ v.extractLsb' 0 8
    let highFirst := v.extractLsb' 8 8 ++ old.extractLsb' 0 8
    (∃ a b, step s = .next a ∧ step a = .next b ∧
      (a.regs.slaveOffsetTarget = v ∨
        (s.params.tornWrites = .bytewise ∧
          (a.regs.slaveOffsetTarget = lowFirst ∨ a.regs.slaveOffsetTarget = highFirst))) ∧
      b.regs.slaveOffsetCurrent.toNat =
        (if s.regs.slaveOffsetCurrent.toNat < a.regs.slaveOffsetTarget.toNat
          then s.regs.slaveOffsetCurrent.toNat + 1
          else if s.regs.slaveOffsetCurrent.toNat > a.regs.slaveOffsetTarget.toNat
          then s.regs.slaveOffsetCurrent.toNat - 1
          else s.regs.slaveOffsetCurrent.toNat) ∧
      b.regs.slaveOffsetTarget = v ∧ b.halfWrites = []) ∧
    (s.params.tornWrites = .bytewise → ∀ seen ∈ [v, lowFirst, highFirst],
      ∃ tear a, step { s with tears := [tear] } = .next a ∧ a.regs.slaveOffsetTarget = seen)

/-- R39 (how tears are chosen is log entry 3) for the fold pair, raw or conditioned, followed by a TICK: of the low
byte and the high bit of WrapFactor and of NegWrapFactor the TICK folds with the new or the old ones, all new under
`atomic`; under `bytewise` each choice of parts that come first happens under some tear; afterwards both registers
hold the event's values. The old values are those after an earlier write in flight has landed (log entry 14). -/
def Obligations.TornFoldWriteLandsAfterOneTick : Prop :=
  ∀ (s : State) (i : Instr) (w : BitVec 9) (n : BitVec 8) (rest : List EventWord),
    ((i = .wrwf w n ∧ legalFoldPair w n = true) ∨
      ∃ k10, i = .ldfold k10 ∧ w = foldWrapFactor k10 ∧ n = foldNegWrapFactor w) →
    s.events = encode i :: encode .tick :: rest →
    let old := (settle s).regs
    let shows (x : Regs) (low high neg : Bool) : Prop :=
      x.wrapFactor = (if high then w.extractLsb' 8 1 else old.wrapFactor.extractLsb' 8 1) ++
        (if low then w.extractLsb' 0 8 else old.wrapFactor.extractLsb' 0 8) ∧
      x.negWrapFactor = if neg then n else old.negWrapFactor
    (∃ a b, step s = .next a ∧ step a = .next b ∧
      (∃ low high neg, shows a.regs low high neg) ∧
      (s.params.tornWrites = .atomic → a.regs.wrapFactor = w ∧ a.regs.negWrapFactor = n) ∧
      b.regs.output = (tickWires a.regs).out ∧
      b.regs.wrapFactor = w ∧ b.regs.negWrapFactor = n ∧ b.halfWrites = []) ∧
    (s.params.tornWrites = .bytewise → ∀ low high neg : Bool, (low || high || neg) = true →
      ∃ tear a, step { s with tears := [tear] } = .next a ∧ shows a.regs low high neg)

/-! ## RESET, runs and invariants -/

/-- R150: the eight registers take `RESET_VALUES` and the trace is cleared, whatever the state; nothing is emitted. That
a control write in flight is cut off, and that the event stream, the tear list and the parameters stay, is log entry 9
(fields of the model's own: log entries 2, 3 and 6). -/
def Obligations.ResetWritesEveryRegister : Prop :=
  ∀ s : State, ∃ t, exec .reset s = .next t ∧
    t.regs = s.params.resetValues ∧ t.trace = [] ∧ t.halfWrites = [] ∧
    t.events = s.events ∧ t.tears = s.tears ∧ t.params = s.params ∧
    (s.params = Config.defaultParams → t.regs = ⟨0, 0, 128, 128, 0, 0, 64, 64⟩)

/-- The machine after RESET, at the spec's default `RESET_VALUES` (R27; the spec's own choice, log entry 1), meets R22
and waits with an empty trace. -/
def Obligations.ResetStateMeetsTheInvariant : Prop :=
  AtomicInv State.reset ∧ TornInv State.reset ∧
  State.reset.regs = ⟨0, 0, 128, 128, 0, 0, 64, 64⟩ ∧ State.reset.trace = []

/-- The spec's inference R152: the first TICK after RESET emits the reset Output and computes from the reset phase;
the second emits what the first computed. Control events may come before each. -/
def Obligations.FirstEmissionIsTheResetOutput : Prop :=
  ∀ (s : State) (cs ds : List Instr) (rest : List EventWord),
    (∀ i ∈ cs, i.isControl = true ∧ i.wellFormed = true) → (∀ i ∈ ds, i.isControl = true ∧ i.wellFormed = true) →
    s.events = words (.reset :: cs ++ .tick :: ds ++ [.tick]) ++ rest →
    ∃ a b c d, ReachesIn (1 + cs.length) s a ∧ step a = .next b ∧ ReachesIn ds.length b c ∧ step c = .next d ∧
      b.regs.masterPhase.toNat =
        (s.params.resetValues.masterPhase.toNat + a.regs.pitchIncrement.toNat) % 65536 ∧
      b.regs.pwmDuty = s.params.resetValues.output ∧ b.trace = [s.params.resetValues.output] ∧
      d.regs.pwmDuty = b.regs.output ∧ d.trace = [s.params.resetValues.output, b.regs.output]

/-- R103: emission happens in TICK and nowhere else. -/
def Obligations.OnlyTickEmits : Prop :=
  ∀ (s : State) (w : EventWord) (rest : List EventWord) (i : Instr),
    s.events = w :: rest → decode w = .event i →
    ∃ t, step s = .next t ∧
      (i = .tick → t.trace = s.trace ++ [s.regs.output] ∧ t.regs.pwmDuty = s.regs.output) ∧
      (i.isControl = true → t.trace = s.trace ∧ t.regs.pwmDuty = s.regs.pwmDuty) ∧
      (i = .reset → t.trace = [] ∧ t.regs.pwmDuty = s.params.resetValues.pwmDuty)

/-- R12: the current offset moves by at most one unit, toward the target, at a TICK; RESET gives it its reset value
and no control event writes it. -/
def Obligations.SlaveOffsetIsRateLimited : Prop :=
  ∀ (s : State) (w : EventWord) (rest : List EventWord) (i : Instr),
    s.events = w :: rest → decode w = .event i →
    ∃ t, step s = .next t ∧
      (i.isControl = true → t.regs.slaveOffsetCurrent = s.regs.slaveOffsetCurrent) ∧
      (i = .reset → t.regs.slaveOffsetCurrent = s.params.resetValues.slaveOffsetCurrent) ∧
      (i = .tick →
        t.regs.slaveOffsetCurrent.toNat ≤ s.regs.slaveOffsetCurrent.toNat + 1 ∧
        s.regs.slaveOffsetCurrent.toNat ≤ t.regs.slaveOffsetCurrent.toNat + 1 ∧
        min s.regs.slaveOffsetCurrent.toNat s.regs.slaveOffsetTarget.toNat ≤ t.regs.slaveOffsetCurrent.toNat ∧
        t.regs.slaveOffsetCurrent.toNat ≤ max s.regs.slaveOffsetCurrent.toNat s.regs.slaveOffsetTarget.toNat)

/-- The spec's inferences R104 and R105: over any run of events after RESET the trace has one element for each TICK,
the Output as it stood before that TICK; so trace and Output together are the reset Output followed by what the TICKs
computed. -/
def Obligations.TraceIsTheOutputsDelayedByOne : Prop :=
  ∀ (s : State) (is : List Instr) (rest : List EventWord),
    (∀ i ∈ is, i.wellFormed = true ∧ i ≠ .reset) → s.events = words (.reset :: is) ++ rest →
    ∃ f : Nat → State, step s = .next (f 0) ∧ (∀ k < is.length, step (f k) = .next (f (k + 1))) ∧
      let ticks := (List.range is.length).filter (fun k => is[k]? == some .tick)
      let e := f is.length
      e.trace.length = is.count .tick ∧
      e.trace = ticks.map (fun k => (f k).regs.output) ∧
      e.trace ++ [e.regs.output] = s.params.resetValues.output :: ticks.map (fun k => (f (k + 1)).regs.output)

/-- The invariant of R22 under `TORN_WRITES = atomic` is kept by every step, from every state that meets it. -/
def Obligations.EveryStepKeepsTheAtomicInvariant : Prop :=
  ∀ s t : State, AtomicInv s → step s = .next t → AtomicInv t

/-- Under either value of `TORN_WRITES` (how writes tear is log entry 3): the registers are legal again once a torn
write has landed, and the slave offsets never leave [0,1023]. -/
def Obligations.EveryStepKeepsTheTornInvariant : Prop :=
  ∀ s t : State, TornInv s → step s = .next t →
    TornInv t ∧ t.regs.slaveOffsetTarget.toNat ≤ 1023 ∧ t.regs.slaveOffsetCurrent.toNat ≤ 1023

/-- R22 (I5 is the spec's inference): every state a run reaches from its RESET on, under `atomic` writes and legal
`RESET_VALUES`. -/
def Obligations.ReachableStatesAreLegal : Prop :=
  ∀ (s t : State) (rest : List EventWord) (k : Nat),
    s.params.tornWrites = .atomic → s.params.resetValues.Legal → s.events = encode .reset :: rest →
    ReachesIn (k + 1) s t →
    64 ≤ t.regs.wrapFactor.toNat ∧ t.regs.wrapFactor.toNat ≤ 511 ∧
    64 ≤ t.regs.negWrapFactor.toNat ∧ t.regs.negWrapFactor.toNat ≤ 255 ∧
    t.regs.negWrapFactor.toNat ≤ t.regs.wrapFactor.toNat ∧
    t.regs.slaveOffsetTarget.toNat ≤ 1023 ∧ t.regs.slaveOffsetCurrent.toNat ≤ 1023

/-- Every run goes through to the exhaustion of its events, from every state, refusing nothing (R113, R131, R155). -/
def Obligations.RunsCompleteWithoutRefusal : Prop :=
  ∀ (s : State), IsRun s.events → ∃ t, ReachesIn s.events.length s t ∧ t.events = [] ∧
    t.trace.length ≤ s.events.count (encode .tick)

/-- What stood in the block before a run's RESET has no influence on the run (R28, R151): two states that differ only in
registers, trace and write in flight reach the same state. That a write in flight is cut off is log entry 9. -/
def Obligations.RunsForgetWhatWasBeforeReset : Prop :=
  ∀ (s : State) (x : Regs) (tr : List Sample) (hs : List HalfWrite) (k : Nat), IsRun s.events →
    runFor (k + 1) s = runFor (k + 1) { s with regs := x, trace := tr, halfWrites := hs }
end

