-- ==== Sys2Proof/Laws/State.lean ====
section
/-! SUPPORT. One lemma for each field of the state under each named update, and for each register under each write:
later proofs rewrite with these and unfold no record update. -/

namespace Sys2Proof.Laws

open Sys2Proof Sys2Proof.Machine

/-! ### The state's updates -/

@[simp] theorem withRegs_regs (s : State) (x : Regs) : (s.withRegs x).regs = x := rfl
@[simp] theorem withRegs_trace (s : State) (x : Regs) : (s.withRegs x).trace = s.trace := rfl
@[simp] theorem withRegs_halfWrites (s : State) (x : Regs) : (s.withRegs x).halfWrites = s.halfWrites := rfl
@[simp] theorem withRegs_events (s : State) (x : Regs) : (s.withRegs x).events = s.events := rfl
@[simp] theorem withRegs_tears (s : State) (x : Regs) : (s.withRegs x).tears = s.tears := rfl
@[simp] theorem withRegs_params (s : State) (x : Regs) : (s.withRegs x).params = s.params := rfl

@[simp] theorem withEvents_regs (s : State) (ws : List EventWord) : (s.withEvents ws).regs = s.regs := rfl
@[simp] theorem withEvents_trace (s : State) (ws : List EventWord) : (s.withEvents ws).trace = s.trace := rfl
@[simp] theorem withEvents_halfWrites (s : State) (ws : List EventWord) :
    (s.withEvents ws).halfWrites = s.halfWrites := rfl
@[simp] theorem withEvents_events (s : State) (ws : List EventWord) : (s.withEvents ws).events = ws := rfl
@[simp] theorem withEvents_tears (s : State) (ws : List EventWord) : (s.withEvents ws).tears = s.tears := rfl
@[simp] theorem withEvents_params (s : State) (ws : List EventWord) : (s.withEvents ws).params = s.params := rfl

@[simp] theorem emit_regs (s : State) : (emit s).regs = { s.regs with pwmDuty := s.regs.output } := rfl
@[simp] theorem emit_trace (s : State) : (emit s).trace = s.trace ++ [s.regs.output] := rfl
@[simp] theorem emit_halfWrites (s : State) : (emit s).halfWrites = s.halfWrites := rfl
@[simp] theorem emit_events (s : State) : (emit s).events = s.events := rfl
@[simp] theorem emit_tears (s : State) : (emit s).tears = s.tears := rfl
@[simp] theorem emit_params (s : State) : (emit s).params = s.params := rfl

@[simp] theorem settle_regs (s : State) : (settle s).regs = landAll s.halfWrites s.regs := rfl
@[simp] theorem settle_trace (s : State) : (settle s).trace = s.trace := rfl
@[simp] theorem settle_halfWrites (s : State) : (settle s).halfWrites = [] := rfl
@[simp] theorem settle_events (s : State) : (settle s).events = s.events := rfl
@[simp] theorem settle_tears (s : State) : (settle s).tears = s.tears := rfl
@[simp] theorem settle_params (s : State) : (settle s).params = s.params := rfl

/-! ### What a TICK stores -/

@[simp] theorem storeWires_masterPhase (w : Wires) (x : Regs) : (storeWires w x).masterPhase = w.m := rfl
@[simp] theorem storeWires_slaveOffsetCurrent (w : Wires) (x : Regs) :
    (storeWires w x).slaveOffsetCurrent = w.c := rfl
@[simp] theorem storeWires_output (w : Wires) (x : Regs) : (storeWires w x).output = w.out := rfl
@[simp] theorem storeWires_pwmDuty (w : Wires) (x : Regs) : (storeWires w x).pwmDuty = x.pwmDuty := rfl
@[simp] theorem storeWires_pitchIncrement (w : Wires) (x : Regs) :
    (storeWires w x).pitchIncrement = x.pitchIncrement := rfl
@[simp] theorem storeWires_slaveOffsetTarget (w : Wires) (x : Regs) :
    (storeWires w x).slaveOffsetTarget = x.slaveOffsetTarget := rfl
@[simp] theorem storeWires_wrapFactor (w : Wires) (x : Regs) : (storeWires w x).wrapFactor = x.wrapFactor := rfl
@[simp] theorem storeWires_negWrapFactor (w : Wires) (x : Regs) :
    (storeWires w x).negWrapFactor = x.negWrapFactor := rfl

/-! ### Landing half-writes touches control registers only -/

@[simp] theorem land_masterPhase (x : Regs) (h : HalfWrite) : (h.land x).masterPhase = x.masterPhase := by
  cases h <;> rfl
@[simp] theorem land_slaveOffsetCurrent (x : Regs) (h : HalfWrite) :
    (h.land x).slaveOffsetCurrent = x.slaveOffsetCurrent := by cases h <;> rfl
@[simp] theorem land_output (x : Regs) (h : HalfWrite) : (h.land x).output = x.output := by cases h <;> rfl
@[simp] theorem land_pwmDuty (x : Regs) (h : HalfWrite) : (h.land x).pwmDuty = x.pwmDuty := by cases h <;> rfl

@[simp] theorem landAll_nil (x : Regs) : landAll [] x = x := rfl
@[simp] theorem landAll_cons (h : HalfWrite) (hs : List HalfWrite) (x : Regs) :
    landAll (h :: hs) x = landAll hs (h.land x) := rfl

@[simp] theorem landAll_masterPhase (hs : List HalfWrite) (x : Regs) :
    (landAll hs x).masterPhase = x.masterPhase := by
  induction hs generalizing x with
  | nil => rfl
  | cons h hs ih => simp [ih]
@[simp] theorem landAll_slaveOffsetCurrent (hs : List HalfWrite) (x : Regs) :
    (landAll hs x).slaveOffsetCurrent = x.slaveOffsetCurrent := by
  induction hs generalizing x with
  | nil => rfl
  | cons h hs ih => simp [ih]
@[simp] theorem landAll_output (hs : List HalfWrite) (x : Regs) : (landAll hs x).output = x.output := by
  induction hs generalizing x with
  | nil => rfl
  | cons h hs ih => simp [ih]
@[simp] theorem landAll_pwmDuty (hs : List HalfWrite) (x : Regs) : (landAll hs x).pwmDuty = x.pwmDuty := by
  induction hs generalizing x with
  | nil => rfl
  | cons h hs ih => simp [ih]

/-- A half-write and a TICK's store touch different registers, so they commute. -/
theorem land_storeWires (w : Wires) (x : Regs) (h : HalfWrite) :
    h.land (storeWires w x) = storeWires w (h.land x) := by cases h <;> rfl

theorem landAll_storeWires (hs : List HalfWrite) (w : Wires) (x : Regs) :
    landAll hs (storeWires w x) = storeWires w (landAll hs x) := by
  induction hs generalizing x with
  | nil => rfl
  | cons h hs ih => simp [land_storeWires, ih]

/-- Half-writes do not reach the duty latch. -/
theorem landAll_withDuty (hs : List HalfWrite) (x : Regs) (d : Sample) :
    landAll hs { x with pwmDuty := d } = { landAll hs x with pwmDuty := d } := by
  induction hs generalizing x with
  | nil => rfl
  | cons h hs ih =>
    rw [landAll_cons, landAll_cons, ← ih]
    cases h <;> rfl

/-- With nothing in flight there is nothing to land. -/
theorem settle_of_nil (s : State) (h : s.halfWrites = []) : settle s = s := by
  cases s; cases h; rfl

end Sys2Proof.Laws
end

