-- ==== Sys2Proof/Laws/Control.lean ====
section
/-! SUPPORT. Everything a control write can do, whole or torn: what lands at once, what stays in flight, and that
both together are the write. -/

namespace Sys2Proof.Laws

open Sys2Proof Sys2Proof.Machine

/-! ### Halves of a register -/

theorem high_of_append {a b : Nat} (hi : BitVec a) (lo : BitVec b) : (hi ++ lo).extractLsb' b a = hi := by
  ext i h
  simp only [BitVec.getElem_extractLsb', BitVec.getLsbD_append]
  rw [if_neg (by omega), Nat.add_sub_cancel_left, BitVec.getLsbD_eq_getElem h]

theorem low_of_append {a b : Nat} (hi : BitVec a) (lo : BitVec b) : (hi ++ lo).extractLsb' 0 b = lo := by
  ext i h
  simp [BitVec.getLsbD_append, h]

theorem append_halves {a b : Nat} (v : BitVec (a + b)) : v.extractLsb' b a ++ v.extractLsb' 0 b = v := by
  ext i h
  simp only [BitVec.getElem_append, BitVec.getElem_extractLsb']
  split
  · simp [BitVec.getLsbD_eq_getElem h]
  · rw [show b + (i - b) = i by omega, BitVec.getLsbD_eq_getElem h]

@[simp] theorem append_halves_16 (v : BitVec 16) : v.extractLsb' 8 8 ++ v.extractLsb' 0 8 = v :=
  append_halves (a := 8) (b := 8) v

@[simp] theorem append_halves_9 (v : BitVec 9) : v.extractLsb' 8 1 ++ v.extractLsb' 0 8 = v :=
  append_halves (a := 1) (b := 8) v

@[simp] theorem high_of_append_16 (hi lo : BitVec 8) : (hi ++ lo : BitVec 16).extractLsb' 8 8 = hi :=
  high_of_append hi lo

@[simp] theorem low_of_append_16 (hi lo : BitVec 8) : (hi ++ lo : BitVec 16).extractLsb' 0 8 = lo :=
  low_of_append hi lo

@[simp] theorem high_of_append_9 (hi : BitVec 1) (lo : BitVec 8) : (hi ++ lo : BitVec 9).extractLsb' 8 1 = hi :=
  high_of_append hi lo

@[simp] theorem low_of_append_9 (hi : BitVec 1) (lo : BitVec 8) : (hi ++ lo : BitVec 9).extractLsb' 0 8 = lo :=
  low_of_append hi lo

/-! ### A torn write -/

/-- The parts that land at once and the parts that land later are together the write, whatever the tear. -/
theorem landAll_now_later (cw : ControlWrite) (t : Tear) (x : Regs) :
    landAll (cw.parts.filter (fun h => !t.landsNow h)) (landAll (cw.parts.filter t.landsNow) x) = cw.whole x := by
  cases cw <;> cases t <;>
    simp [List.filter, ControlWrite.parts, ControlWrite.whole, Tear.landsNow, Tear.lowNow, Tear.highNow, Tear.negNow,
      HalfWrite.land]

@[simp] theorem whole_masterPhase (cw : ControlWrite) (x : Regs) : (cw.whole x).masterPhase = x.masterPhase := by
  cases cw <;> rfl
@[simp] theorem whole_slaveOffsetCurrent (cw : ControlWrite) (x : Regs) :
    (cw.whole x).slaveOffsetCurrent = x.slaveOffsetCurrent := by cases cw <;> rfl
@[simp] theorem whole_output (cw : ControlWrite) (x : Regs) : (cw.whole x).output = x.output := by cases cw <;> rfl
@[simp] theorem whole_pwmDuty (cw : ControlWrite) (x : Regs) : (cw.whole x).pwmDuty = x.pwmDuty := by
  cases cw <;> rfl

/-- Once landed, a torn write is the write. -/
theorem settle_tornWrite (cw : ControlWrite) (t : Tear) (s : State) :
    settle (tornWrite cw t s) = { s with regs := cw.whole s.regs, halfWrites := [] } := by
  unfold tornWrite
  split
  · rfl
  · simp only [settle, landAll_now_later]

@[simp] theorem tornWrite_trace (cw : ControlWrite) (t : Tear) (s : State) : (tornWrite cw t s).trace = s.trace := by
  unfold tornWrite; split <;> rfl
@[simp] theorem tornWrite_events (cw : ControlWrite) (t : Tear) (s : State) :
    (tornWrite cw t s).events = s.events := by unfold tornWrite; split <;> rfl
@[simp] theorem tornWrite_tears (cw : ControlWrite) (t : Tear) (s : State) : (tornWrite cw t s).tears = s.tears := by
  unfold tornWrite; split <;> rfl
@[simp] theorem tornWrite_params (cw : ControlWrite) (t : Tear) (s : State) :
    (tornWrite cw t s).params = s.params := by unfold tornWrite; split <;> rfl
@[simp] theorem tornWrite_masterPhase (cw : ControlWrite) (t : Tear) (s : State) :
    (tornWrite cw t s).regs.masterPhase = s.regs.masterPhase := by unfold tornWrite; split <;> simp
@[simp] theorem tornWrite_slaveOffsetCurrent (cw : ControlWrite) (t : Tear) (s : State) :
    (tornWrite cw t s).regs.slaveOffsetCurrent = s.regs.slaveOffsetCurrent := by unfold tornWrite; split <;> simp
@[simp] theorem tornWrite_output (cw : ControlWrite) (t : Tear) (s : State) :
    (tornWrite cw t s).regs.output = s.regs.output := by unfold tornWrite; split <;> simp
@[simp] theorem tornWrite_pwmDuty (cw : ControlWrite) (t : Tear) (s : State) :
    (tornWrite cw t s).regs.pwmDuty = s.regs.pwmDuty := by unfold tornWrite; split <;> simp

/-! ### A control write -/

/-- Under `atomic` a control write is the whole write. -/
theorem controlWrite_atomic (cw : ControlWrite) (s : State) (h : s.params.tornWrites = .atomic) :
    controlWrite cw s = (settle s).withRegs (cw.whole (settle s).regs) := by
  simp only [controlWrite, h]

/-- Under `bytewise` the next tear decides. -/
theorem controlWrite_bytewise (cw : ControlWrite) (s : State) (h : s.params.tornWrites = .bytewise) :
    controlWrite cw s = tornWrite cw (s.tears.headD .whole) { settle s with tears := s.tears.tail } := by
  simp only [controlWrite, h]

/-- What a torn write leaves in the registers depends on the registers alone. -/
theorem tornWrite_regs_congr (cw : ControlWrite) (t : Tear) {s u : State} (h : s.regs = u.regs) :
    (tornWrite cw t s).regs = (tornWrite cw t u).regs := by
  unfold tornWrite
  split <;> simp only [h]

/-- The registers right after a control write: whole under `atomic`, torn as the next entry says under `bytewise`, in
either case over what the earlier write in flight leaves. -/
theorem controlWrite_regs_cases (cw : ControlWrite) (s : State) :
    (s.params.tornWrites = .atomic ∧ (controlWrite cw s).regs = cw.whole (settle s).regs) ∨
    (s.params.tornWrites = .bytewise ∧
      (controlWrite cw s).regs = (tornWrite cw (s.tears.headD .whole) (settle s)).regs) := by
  cases h : s.params.tornWrites with
  | atomic => exact .inl ⟨rfl, by rw [controlWrite_atomic cw s h]; rfl⟩
  | bytewise => exact .inr ⟨rfl, by rw [controlWrite_bytewise cw s h]; exact tornWrite_regs_congr _ _ rfl⟩

/-- Once landed, a control write has changed the written registers and no others, whatever the platform tears. -/
theorem settle_controlWrite_regs (cw : ControlWrite) (s : State) :
    (settle (controlWrite cw s)).regs = cw.whole (settle s).regs := by
  unfold controlWrite
  split
  · rfl
  · rw [settle_tornWrite]

@[simp] theorem controlWrite_trace (cw : ControlWrite) (s : State) : (controlWrite cw s).trace = s.trace := by
  unfold controlWrite; split <;> simp
@[simp] theorem controlWrite_events (cw : ControlWrite) (s : State) : (controlWrite cw s).events = s.events := by
  unfold controlWrite; split <;> simp
@[simp] theorem controlWrite_params (cw : ControlWrite) (s : State) : (controlWrite cw s).params = s.params := by
  unfold controlWrite; split <;> simp
@[simp] theorem controlWrite_masterPhase (cw : ControlWrite) (s : State) :
    (controlWrite cw s).regs.masterPhase = s.regs.masterPhase := by unfold controlWrite; split <;> simp
@[simp] theorem controlWrite_slaveOffsetCurrent (cw : ControlWrite) (s : State) :
    (controlWrite cw s).regs.slaveOffsetCurrent = s.regs.slaveOffsetCurrent := by
  unfold controlWrite; split <;> simp
@[simp] theorem controlWrite_output (cw : ControlWrite) (s : State) :
    (controlWrite cw s).regs.output = s.regs.output := by unfold controlWrite; split <;> simp
@[simp] theorem controlWrite_pwmDuty (cw : ControlWrite) (s : State) :
    (controlWrite cw s).regs.pwmDuty = s.regs.pwmDuty := by unfold controlWrite; split <;> simp

end Sys2Proof.Laws
end

