-- ==== Sys2Proof/Laws/PerInstr.lean ====
section
/-! SUPPORT. Laws made of one lemma for each event. -/

namespace Sys2Proof.Laws.EncodedOnRow

open Sys2Proof

/-- An event's word has the fixed bits of the event's row of the opcode table, and that row is one of the
table's seven. -/
def Statement (i : Instr) : Prop :=
  i.row.fits (encode i) = true ∧ i.row ∈ opcodeTable

/-- Fixed bits and operand bits lie apart. -/
theorem fits_of_disjoint {mask pattern body : EventWord} (hp : pattern &&& mask = pattern) (hb : body &&& mask = 0) :
    (OpcodeRow.mk mask pattern).fits (pattern ||| body) = true := by
  simp only [OpcodeRow.fits, BitVec.and_comm _ mask, BitVec.and_or_distrib_left] at *
  simp [hp, hb]

/-- A field widened and moved up to bit `lo` has no bit where the mask has one. -/
theorem field_disjoint {n : Nat} (mask : EventWord) (v : BitVec n) (lo : Nat)
    (hm : ∀ i < 24, mask.getLsbD i = true → i < lo ∨ lo + n ≤ i) : (v.setWidth 24 <<< lo) &&& mask = 0 := by
  ext i hi
  by_cases hb : mask.getLsbD i = true
  · rcases hm i hi hb with h | h
    · simp [h]
    · have : n ≤ i - lo := by omega
      simp [this]
  · simp [← BitVec.getLsbD_eq_getElem, hb]

theorem tick : Statement .tick := by constructor <;> decide
theorem reset : Statement .reset := by constructor <;> decide

theorem wrpi (imm16 : BitVec 16) : Statement (.wrpi imm16) :=
  ⟨fits_of_disjoint (by decide) (by simpa using field_disjoint 0xFF0000 imm16 0 (by decide)), by
    simp [opcodeTable, Instr.row]⟩

theorem lddetune (k10 : BitVec 10) : Statement (.lddetune k10) :=
  ⟨fits_of_disjoint (by decide) (by simpa using field_disjoint 0xFFFC00 k10 0 (by decide)), by
    simp [opcodeTable, Instr.row]⟩

theorem ldfold (k10 : BitVec 10) : Statement (.ldfold k10) :=
  ⟨fits_of_disjoint (by decide) (by simpa using field_disjoint 0xFFFC00 k10 0 (by decide)), by
    simp [opcodeTable, Instr.row]⟩

/-- Two fields, one above the other. -/
theorem fits_of_two {mask pattern a b : EventWord} (hp : pattern &&& mask = pattern) (ha : a &&& mask = 0)
    (hb : b &&& mask = 0) : (OpcodeRow.mk mask pattern).fits (pattern ||| a ||| b) = true := by
  rw [BitVec.or_assoc]
  refine fits_of_disjoint hp ?_
  rw [BitVec.and_comm, BitVec.and_or_distrib_left, BitVec.and_comm mask a, BitVec.and_comm mask b, ha, hb]
  rfl

theorem wrwf (wf9 : BitVec 9) (nwf8 : BitVec 8) : Statement (.wrwf wf9 nwf8) :=
  ⟨fits_of_two (by decide) (field_disjoint 0xFE0000 nwf8 9 (by decide))
    (by simpa using field_disjoint 0xFE0000 wf9 0 (by decide)), by simp [opcodeTable, Instr.row]⟩

theorem ldpitch (cv10 knob10 : BitVec 10) : Statement (.ldpitch cv10 knob10) :=
  ⟨fits_of_two (by decide) (field_disjoint 0xF00000 knob10 10 (by decide))
    (by simpa using field_disjoint 0xF00000 cv10 0 (by decide)), by simp [opcodeTable, Instr.row]⟩

end Sys2Proof.Laws.EncodedOnRow
end

