-- ==== Sys2Proof/Laws/Units.lean ====
section
/-! SUPPORT. One lemma for each unit of TICK and each operand form: its result as a number. -/

namespace Sys2Proof.Laws

open Sys2Proof Sys2Proof.Machine

theorem phaseAdvance_toNat (m i : Word) : (phaseAdvance m i).toNat = (m.toNat + i.toNat) % 65536 := by
  simp [phaseAdvance]

theorem slew_toNat (c t : Word) :
    (slew c t).toNat = if c.toNat < t.toNat then c.toNat + 1 else if c.toNat > t.toNat then c.toNat - 1 else c.toNat := by
  have := t.isLt
  have := c.isLt
  unfold slew
  simp only [BitVec.lt_def, gt_iff_lt]
  split
  · rw [BitVec.toNat_add]; simp; omega
  · split
    · rw [BitVec.toNat_sub]; simp; omega
    · rfl

theorem slavePhase_toNat (m c : Word) :
    (slavePhase m c).toNat = (m.toNat * c.toNat / 256 + m.toNat) % 65536 := by
  simp [slavePhase, Nat.shiftRight_eq_div_pow]

theorem sineIndex_toNat (p : Word) : (sineIndex p).toNat = p.toNat / 128 % 256 := by
  have := p.isLt
  simp [sineIndex, BitVec.toNat_ushiftRight, BitVec.toNat_shiftLeft, Nat.shiftRight_eq_div_pow, Nat.shiftLeft_eq]
  omega

/-- The parabola never exceeds 127 * 128. -/
theorem parabola_le (x : Nat) (h : x ≤ 255) : x * (255 - x) ≤ 16256 := by
  have hy : 255 - x + x = 255 := by omega
  generalize 255 - x = y at hy ⊢
  rcases Nat.lt_or_ge x 128 with hx | hx <;> nlinarith

theorem pSine_toNat (x : BitVec 8) : (pSine x).toNat = x.toNat * (255 - x.toNat) / 64 := by
  have hx := x.isLt
  have := parabola_le x.toNat (by omega)
  simp [pSine, Nat.shiftRight_eq_div_pow, Nat.shiftLeft_eq]
  omega

theorem pSineMag_toNat (p : Word) :
    (pSineMag p).toNat = p.toNat / 128 % 256 * (255 - p.toNat / 128 % 256) / 64 := by
  rw [pSineMag, pSine_toNat, sineIndex_toNat]

theorem pSineMag_le (p : Word) : (pSineMag p).toNat ≤ 254 := by
  have := parabola_le (p.toNat / 128 % 256) (by omega)
  rw [pSineMag_toNat]
  omega

theorem pSinePol_eq (p : Word) : pSinePol p = decide (32768 ≤ p.toNat) := by
  have := p.isLt
  simp only [pSinePol, BitVec.getLsbD, Nat.testBit_eq_decide_div_mod_eq]
  rw [decide_eq_decide]
  omega

theorem ringMag_toNat (mM mS : Magnitude) (hM : mM.toNat ≤ 254) (hS : mS.toNat ≤ 254) :
    (ringMag mM mS).toNat = mM.toNat * mS.toNat / 512 := by
  have : mM.toNat * mS.toNat ≤ 254 * 254 := Nat.mul_le_mul hM hS
  simp [ringMag, Nat.shiftRight_eq_div_pow]
  omega

theorem ringMag_le (mM mS : Magnitude) (hM : mM.toNat ≤ 254) (hS : mS.toNat ≤ 254) :
    (ringMag mM mS).toNat ≤ 126 := by
  have : mM.toNat * mS.toNat ≤ 254 * 254 := Nat.mul_le_mul hM hS
  rw [ringMag_toNat mM mS hM hS]
  omega

theorem foldSelect_toNat (p : Polarity) (w : BitVec 9) (n : BitVec 8) :
    (foldSelect p w n).toNat = if p then n.toNat else w.toNat := by
  have := n.isLt
  cases p
  · simp [foldSelect]
  · simp [foldSelect]; omega

theorem foldScale_eq (r : Magnitude) (f : BitVec 9) : foldScale r f = r.toNat * f.toNat / 64 := by
  simp [foldScale, Nat.shiftRight_eq_div_pow, Nat.shiftLeft_eq]
  omega

theorem foldPol_eq (v0 : Nat) (p : Polarity) : foldPol v0 p = if v0 / 256 % 2 = 1 then !p else p := by
  unfold foldPol
  simp only [Nat.testBit_eq_decide_div_mod_eq, ge_iff_le, decide_eq_true_eq]
  by_cases h : 256 ≤ v0
  · rw [if_pos h]
  · rw [if_neg h, if_neg (by omega)]

theorem foldWrap_toNat (v0 : Nat) : (foldWrap v0).toNat = v0 % 256 := by
  have : v0 &&& 255 = v0 % 256 := Nat.and_two_pow_sub_one_eq_mod v0 8
  simp only [foldWrap, this, BitVec.toNat_ofNat]
  split <;> omega

theorem foldReflect_toNat (v1 : BitVec 8) :
    (foldReflect v1).toNat = if v1.toNat ≤ 127 then v1.toNat else 255 - v1.toNat := by
  have := v1.isLt
  have : v1.toNat &&& 127 = v1.toNat % 128 := Nat.and_two_pow_sub_one_eq_mod v1.toNat 7
  unfold foldReflect
  rw [this]
  split
  · rw [BitVec.toNat_ofNat, if_neg (by omega)]; omega
  · rw [if_pos (by omega)]

theorem foldReflect_le (v1 : BitVec 8) : (foldReflect v1).toNat ≤ 127 := by
  have := v1.isLt
  rw [foldReflect_toNat]
  split <;> omega

theorem outConv_toNat (v : Magnitude) (p : Polarity) (h : v.toNat ≤ 127) :
    (outConv v p).toNat = if p then 127 - v.toNat else 128 + v.toNat := by
  cases p
  · simp [outConv]; omega
  · simp [outConv, BitVec.toNat_sub]; omega

/-! ### The wires of a TICK, each from the ones before it -/

theorem wires_m (x : Regs) : (tickWires x).m = phaseAdvance x.masterPhase x.pitchIncrement := rfl
theorem wires_c (x : Regs) : (tickWires x).c = slew x.slaveOffsetCurrent x.slaveOffsetTarget := rfl
theorem wires_mM (x : Regs) : (tickWires x).mM = pSineMag (tickWires x).m := rfl
theorem wires_pM (x : Regs) : (tickWires x).pM = pSinePol (tickWires x).m := rfl
theorem wires_sp (x : Regs) : (tickWires x).sp = slavePhase (tickWires x).m (tickWires x).c := rfl
theorem wires_mS (x : Regs) : (tickWires x).mS = pSineMag (tickWires x).sp := rfl
theorem wires_pS (x : Regs) : (tickWires x).pS = pSinePol (tickWires x).sp := rfl
theorem wires_r (x : Regs) : (tickWires x).r = ringMag (tickWires x).mM (tickWires x).mS := rfl
theorem wires_p (x : Regs) : (tickWires x).p = ringPol (tickWires x).pM (tickWires x).pS := rfl
theorem wires_f (x : Regs) : (tickWires x).f = foldSelect (tickWires x).p x.wrapFactor x.negWrapFactor := rfl
theorem wires_v0 (x : Regs) : (tickWires x).v0 = foldScale (tickWires x).r (tickWires x).f := rfl
theorem wires_p' (x : Regs) : (tickWires x).p' = foldPol (tickWires x).v0 (tickWires x).p := rfl
theorem wires_v1 (x : Regs) : (tickWires x).v1 = foldWrap (tickWires x).v0 := rfl
theorem wires_v (x : Regs) : (tickWires x).v = foldReflect (tickWires x).v1 := rfl
theorem wires_out (x : Regs) : (tickWires x).out = outConv (tickWires x).v (tickWires x).p' := rfl

theorem wires_mM_le (x : Regs) : (tickWires x).mM.toNat ≤ 254 := pSineMag_le _
theorem wires_mS_le (x : Regs) : (tickWires x).mS.toNat ≤ 254 := pSineMag_le _
theorem wires_r_le (x : Regs) : (tickWires x).r.toNat ≤ 126 := ringMag_le _ _ (wires_mM_le x) (wires_mS_le x)
theorem wires_v_le (x : Regs) : (tickWires x).v.toNat ≤ 127 := foldReflect_le _

/-! ### The conditioning of readings -/

theorem effectivePitch_toNat (cv knob : Reading) :
    (effectivePitch cv knob).toNat = min (cv.toNat + (knob.toNat - 600)) 1023 := by
  have := cv.isLt
  have := knob.isLt
  simp only [effectivePitch, clamp, knobOver, Config.knobDeadzone, Config.adcMax, BitVec.toNat_ofNat]
  split <;> omega

theorem detuneTarget_toNat (k : Reading) : (detuneTarget k).toNat = k.toNat := by
  have := k.isLt
  simp only [detuneTarget, BitVec.toNat_setWidth]
  omega

theorem foldWrapFactor_toNat (k : Reading) : (foldWrapFactor k).toNat = min (64 + k.toNat / 2) 511 := by
  simp only [foldWrapFactor, Config.wrapMin, Config.wrapMax, BitVec.toNat_ofNat]
  omega

theorem foldNegWrapFactor_toNat (w : BitVec 9) : (foldNegWrapFactor w).toNat = max (w.toNat / 2) 64 := by
  have := w.isLt
  simp only [foldNegWrapFactor, Config.negWrapMin, BitVec.toNat_ofNat]
  omega

end Sys2Proof.Laws
end

