-- ==== Sys2Proof/Laws/Step.lean ====
section
/-! SUPPORT. Everything a meaning and a step can do: provers cite these and unfold neither. -/

namespace Sys2Proof.Laws

open Sys2Proof Sys2Proof.Machine

/-! ### Meanings -/

/-- The state a TICK leaves. -/
theorem exec_tick (s : State) :
    exec .tick s = .next ((emit s).withRegs (storeWires (tickWires s.regs) (emit s).regs)) := rfl

/-- The state RESET leaves. -/
theorem exec_reset (s : State) :
    exec .reset s = .next { s with regs := s.params.resetValues, trace := [], halfWrites := [] } := rfl

/-- The values a control event may write: those R22 allows. -/
def LegalWrite : ControlWrite → Prop
  | .pitchIncrement _ => True
  | .slaveOffsetTarget v => v.toNat ≤ 1023
  | .foldPair w n => 64 ≤ w.toNat ∧ 64 ≤ n.toNat ∧ n.toNat ≤ w.toNat

/-- A well-formed control event is one control write, of legal values that depend on its operands alone. -/
theorem exec_control (i : Instr) (hi : i.isControl = true) (hw : i.wellFormed = true) :
    ∃ cw : ControlWrite, LegalWrite cw ∧ ∀ s : State, exec i s = .next (controlWrite cw s) := by
  cases i with
  | tick => exact absurd hi (by decide)
  | reset => exact absurd hi (by decide)
  | wrpi v => exact ⟨.pitchIncrement v, trivial, fun _ => rfl⟩
  | wrwf w n =>
    refine ⟨.foldPair w n, ?_, fun _ => if_pos hw⟩
    simpa [LegalWrite, Instr.wellFormed, legalFoldPair, and_assoc, Config.wrapMin, Config.negWrapMin] using hw
  | ldpitch cv knob =>
    exact ⟨.pitchIncrement (Config.octaveLut.entry (effectivePitch cv knob)), trivial, fun _ => rfl⟩
  | lddetune k =>
    have := k.isLt
    exact ⟨.slaveOffsetTarget (detuneTarget k), by simp only [LegalWrite, detuneTarget_toNat]; omega, fun _ => rfl⟩
  | ldfold k =>
    refine ⟨.foldPair (foldWrapFactor k) (foldNegWrapFactor (foldWrapFactor k)), ?_, fun _ => rfl⟩
    simp only [LegalWrite, foldNegWrapFactor_toNat, foldWrapFactor_toNat]
    omega

/-- A well-formed event goes on in some state (R131). -/
theorem exec_wellFormed (i : Instr) (hw : i.wellFormed = true) (s : State) : ∃ t, exec i s = .next t := by
  by_cases hc : i.isControl = true
  · obtain ⟨cw, -, h⟩ := exec_control i hc hw
    exact ⟨_, h s⟩
  · cases i <;> first | exact ⟨_, rfl⟩ | exact absurd rfl hc

/-- An event that goes on is well formed. -/
theorem wellFormed_of_exec {i : Instr} {s t : State} (h : exec i s = .next t) : i.wellFormed = true := by
  cases i <;> try rfl
  case wrwf w n =>
    by_contra hn
    have hr : exec (.wrwf w n) s = .refused .reservedOperands := if_neg hn
    rw [hr] at h
    cases h

theorem ifZero_event {n : Nat} {field : BitVec n} {v : Verdict} {i : Instr} (h : v.ifZero field = .event i) :
    field = 0 ∧ v = .event i := by
  unfold Verdict.ifZero at h
  split at h
  · exact ⟨‹_›, h⟩
  · cases h

theorem ofFoldPair_event {w : BitVec 9} {n : BitVec 8} {i : Instr} (h : Verdict.ofFoldPair w n = .event i) :
    legalFoldPair w n = true ∧ i = .wrwf w n := by
  unfold Verdict.ofFoldPair at h
  split at h
  · exact ⟨‹_›, by cases h; rfl⟩
  · cases h

/-- The decoder gives well-formed events only. -/
theorem wellFormed_of_decode {w : EventWord} {i : Instr} (h : decode w = .event i) : i.wellFormed = true := by
  unfold decode at h
  split at h
  case h_4 =>
    obtain ⟨hl, rfl⟩ := ofFoldPair_event (ifZero_event h).2
    exact hl
  case h_5 => cases h; rfl
  case h_8 => cases h
  all_goals cases (ifZero_event h).2; rfl

/-! ### Steps -/

theorem step_idle {s : State} (h : s.events = []) : step s = .next (idle s) := by
  simp only [step, fetch, h]

theorem step_invalid {s : State} {w : EventWord} {rest : List EventWord} {why : Reserved}
    (h : s.events = w :: rest) (hd : decode w = .invalid why) : step s = .refused (.invalidWord w why) := by
  simp only [step, fetch, h, hd]

theorem step_event {s : State} {w : EventWord} {rest : List EventWord} {i : Instr}
    (h : s.events = w :: rest) (hd : decode w = .event i) :
    step s = onNext (afterEvent i) (exec i (s.withEvents rest)) := by
  simp only [step, fetch, h, hd]

/-- A step over a TICK: the nine steps, then what is left of a torn write lands. -/
theorem step_tick {s : State} {w : EventWord} {rest : List EventWord}
    (h : s.events = w :: rest) (hd : decode w = .event .tick) :
    step s = .next { settle s with
      regs := storeWires (tickWires s.regs) { landAll s.halfWrites s.regs with pwmDuty := s.regs.output }
      trace := s.trace ++ [s.regs.output]
      events := rest } := by
  rw [step_event h hd, exec_tick]
  simp only [onNext, afterEvent, settle, State.withRegs, State.withEvents, emit, landAll_storeWires, landAll_withDuty]

/-- A step over a control event that is the control write `cw`. -/
theorem step_of_write {s : State} {w : EventWord} {rest : List EventWord} {i : Instr} {cw : ControlWrite}
    (hx : ∀ u, exec i u = .next (controlWrite cw u)) (h : s.events = w :: rest) (hd : decode w = .event i)
    (hi : i.isControl = true) : step s = .next (controlWrite cw (s.withEvents rest)) := by
  rw [step_event h hd, hx]
  cases i <;> first | rfl | exact absurd hi (by decide)

/-- A step over a control event: one control write, of legal values. -/
theorem step_control {s : State} {w : EventWord} {rest : List EventWord} {i : Instr}
    (h : s.events = w :: rest) (hd : decode w = .event i) (hi : i.isControl = true) :
    ∃ cw : ControlWrite, LegalWrite cw ∧ step s = .next (controlWrite cw (s.withEvents rest)) := by
  obtain ⟨cw, hl, hx⟩ := exec_control i hi (wellFormed_of_decode hd)
  exact ⟨cw, hl, step_of_write hx h hd hi⟩

/-- A control event and the TICK after it: the TICK computes from the registers as the write, whole or torn, left them,
and after it the write has landed. -/
theorem step_write_then_tick {s : State} {w w' : EventWord} {rest : List EventWord} {i : Instr} {cw : ControlWrite}
    (hx : ∀ u, exec i u = .next (controlWrite cw u)) (h : s.events = w :: w' :: rest) (hd : decode w = .event i)
    (hi : i.isControl = true) (hd' : decode w' = .event .tick) :
    ∃ a b, step s = .next a ∧ step a = .next b ∧
      ((s.params.tornWrites = .atomic ∧ a.regs = cw.whole (settle s).regs) ∨
        (s.params.tornWrites = .bytewise ∧
          a.regs = (tornWrite cw (s.tears.headD .whole) (settle s)).regs)) ∧
      b.regs = storeWires (tickWires a.regs) { cw.whole (settle s).regs with pwmDuty := a.regs.output } ∧
      b.halfWrites = [] := by
  refine ⟨_, _, step_of_write hx h hd hi, step_tick (controlWrite_events cw _) hd', ?_, ?_, rfl⟩
  · rcases controlWrite_regs_cases cw (s.withEvents (w' :: rest)) with ⟨ha, hr⟩ | ⟨hb, hr⟩
    · exact .inl ⟨ha, hr⟩
    · exact .inr ⟨hb, hr.trans (tornWrite_regs_congr _ _ rfl)⟩
  · have hl : landAll (controlWrite cw (s.withEvents (w' :: rest))).halfWrites
        (controlWrite cw (s.withEvents (w' :: rest))).regs = cw.whole (settle s).regs :=
      settle_controlWrite_regs cw (s.withEvents (w' :: rest))
    show storeWires _ _ = _
    rw [hl]

/-- A step over RESET. -/
theorem step_reset {s : State} {w : EventWord} {rest : List EventWord}
    (h : s.events = w :: rest) (hd : decode w = .event .reset) :
    step s = .next { s with regs := s.params.resetValues, trace := [], halfWrites := [], events := rest } := by
  rw [step_event h hd]; rfl

/-- What a step that goes on was: idle, a TICK, a control write or a RESET. -/
theorem step_cases {s t : State} (h : step s = .next t) :
    (s.events = [] ∧ t = idle s) ∨
    ∃ w rest i, s.events = w :: rest ∧ decode w = .event i ∧
      (i = .tick ∨ i = .reset ∨ i.isControl = true) := by
  cases he : s.events with
  | nil =>
    rw [step_idle he] at h
    exact .inl ⟨rfl, (Host.Outcome.next.inj h).symm⟩
  | cons w rest =>
    cases hd : decode w with
    | invalid why => rw [step_invalid he hd] at h; cases h
    | event i =>
      refine .inr ⟨w, rest, i, rfl, hd, ?_⟩
      cases i <;> simp [Instr.isControl]

end Sys2Proof.Laws
end

