-- ==== Sys2Proof/Laws/Run.lean ====
section
/-! SUPPORT. Runs of many steps: one more step, composition, and the induction over a run. -/

namespace Sys2Proof.Laws

open Sys2Proof Sys2Proof.Machine

@[simp] theorem run_zero (s : State) : runFor 0 s = .next s := rfl

/-- A run whose first step goes on. -/
theorem run_succ {s t : State} (h : step s = .next t) (k : Nat) : runFor (k + 1) s = runFor k t := by
  have hc : core.step s = .next t := h
  simp only [runFor, Host.Core.run, hc]
  rfl

/-- A run that goes on for one more step: its first step went on. -/
theorem run_succ_cases {s t : State} {k : Nat} (h : runFor (k + 1) s = .next t) :
    ∃ u, step s = .next u ∧ runFor k u = .next t := by
  simp only [runFor, Host.Core.run] at h
  split at h
  · exact ⟨_, ‹_›, h⟩
  · cases h
  · cases h

/-- Runs compose. -/
theorem run_add {s t : State} {j : Nat} (h : runFor j s = .next t) (k : Nat) :
    runFor (j + k) s = runFor k t := by
  induction j generalizing s with
  | zero => cases h; rw [Nat.zero_add]
  | succ j ih =>
    obtain ⟨u, hu, hr⟩ := run_succ_cases h
    rw [Nat.add_right_comm, run_succ hu, ih hr]

/-- The induction over a run, once: what every step keeps, every run keeps. -/
theorem run_keeps (P : State → Prop) (hP : ∀ s t, P s → step s = .next t → P t) {s t : State} {k : Nat}
    (h : runFor k s = .next t) (hs : P s) : P t := by
  induction k generalizing s with
  | zero => cases h; exact hs
  | succ k ih =>
    obtain ⟨u, hu, hr⟩ := run_succ_cases h
    exact ih hr (hP _ _ hs hu)

end Sys2Proof.Laws
end

