-- ==== Sys2Proof/Tests/Slice0.lean ====
section
/-! SUPPORT. The model's own tests. Expected values come from spec/95_test_vectors.md (the section is named beside
each) and from the spec's layouts; the second half shows, for each statement of Obligations.lean that has
hypotheses, states and operands that meet them all together. -/

namespace Sys2Proof.Tests

open Sys2Proof Sys2Proof.Machine

/-! ### Helpers -/

/-- A state with these registers, `M C O D | PI T W N` as spec/95_test_vectors.md writes them. -/
def holding (m c : Word) (o d : Sample) (pi t : Word) (w : BitVec 9) (n : BitVec 8) : State :=
  State.reset.withRegs ⟨m, c, o, d, pi, t, w, n⟩

/-- The registers after an outcome that goes on. -/
def regsAfter : Host.Outcome State Fault Refusal → Option Regs
  | .next s => some s.regs
  | .fault _ => none
  | .refused _ => none

/-- The state after an outcome that goes on. -/
def stateAfter : Host.Outcome State Fault Refusal → Option State
  | .next s => some s
  | .fault _ => none
  | .refused _ => none

/-- The reason of a refusal. -/
def refusalOf : Host.Outcome State Fault Refusal → Option Refusal
  | .next _ => none
  | .fault _ => none
  | .refused r => some r

/-- The state on a platform that tears its next control write so. -/
def tearing (t : Tear) (s : State) : State :=
  { s with params := { s.params with tornWrites := .bytewise }, tears := [t] }

/-- `TEST_LUT[i] = 64 * i` of spec/95_test_vectors.md 2.9; not the firmware's table. -/
def testLut : OctaveLut where
  entry i := BitVec.ofNat 16 (64 * i.toNat)
  mono i j h := by
    have := i.isLt
    have := j.isLt
    have : i.toNat ≤ j.toNat := h
    show (BitVec.ofNat 16 (64 * i.toNat)).toNat ≤ (BitVec.ofNat 16 (64 * j.toNat)).toNat
    simp only [BitVec.toNat_ofNat]
    omega

/-! ### WellFormed: one ill-formed term for each check of R51 -/

theorem test_wrapFactor_below_64_is_ill_formed : (Instr.wrwf 63 64).wellFormed = false := by decide
theorem test_negWrapFactor_below_64_is_ill_formed : (Instr.wrwf 64 63).wellFormed = false := by decide
theorem test_negWrapFactor_above_wrapFactor_is_ill_formed : (Instr.wrwf 64 65).wellFormed = false := by decide
theorem test_nearest_pair_is_well_formed : (Instr.wrwf 64 64).wellFormed = true := by decide

/-! ### Decode: words written out from the layouts of R46, one for each event (2.9, 2.10) -/

theorem test_decode_tick : decode 0b0001_00000000000000000000#24 = .event .tick := by decide
theorem test_decode_wrpi : decode 0b0010_0000_1111111111111111#24 = .event (.wrpi 65535) := by decide
theorem test_decode_wrwf : decode 0b0011_000_01000000_111111111#24 = .event (.wrwf 511 64) := by decide
theorem test_decode_ldpitch : decode 0b0100_1111101000_1010111100#24 = .event (.ldpitch 700 1000) := by decide
theorem test_decode_lddetune : decode 0b0101_0000000000_1111111111#24 = .event (.lddetune 1023) := by decide
theorem test_decode_ldfold : decode 0b0110_0000000000_0010000100#24 = .event (.ldfold 132) := by decide
theorem test_decode_reset : decode 0b1111_00000000000000000000#24 = .event .reset := by decide

/-- The `invalid` rows of 2.10. -/
theorem test_decode_reserved :
    decode 0x000000 = .invalid .opcode ∧ decode 0x700000 = .invalid .opcode ∧ decode 0xE00000 = .invalid .opcode ∧
    decode 0x100001 = .invalid .mustBeZero ∧ decode 0xF00001 = .invalid .mustBeZero ∧
    decode 0xFFFFFF = .invalid .mustBeZero ∧ decode 0x210000 = .invalid .mustBeZero ∧
    decode 0x320000 = .invalid .mustBeZero ∧ decode 0x500400 = .invalid .mustBeZero ∧
    decode 0x300000 = .invalid .operands ∧ decode 0x30803F = .invalid .operands ∧
    decode 0x307E40 = .invalid .operands ∧ decode 0x308240 = .invalid .operands := by decide

/-- The examples of R54. -/
theorem test_encode_examples :
    encode (.wrpi 1000) = 0x2003E8 ∧ encode (.wrwf 64 64) = 0x308040 ∧ encode (.wrwf 511 255) = 0x31FFFF ∧
    encode (.ldpitch 0 800) = 0x4C8000 ∧ encode (.lddetune 1023) = 0x5003FF ∧ encode (.ldfold 894) = 0x60037E := by
  decide

theorem test_decodeTableWord_lays_the_word_out :
    decodeTableWord 24 0x2003E8 = some (.wrpi 1000) ∧ decodeTableWord 24 0x300000 = none ∧
    decodeTableWord 24 0x1000000 = none := by decide

theorem test_withFetchWord_runs_next :
    regsAfter (step (State.reset.withFetchWord 24 0x2003E8)) =
      some ⟨0, 0, 128, 128, 1000, 0, 64, 64⟩ := by decide

/-! ### The table of R71 -/

theorem test_pSine_table :
    (List.range 128).map (fun x => (pSine (BitVec.ofNat 8 x)).toNat) =
      [0, 3, 7, 11, 15, 19, 23, 27, 30, 34, 38, 41, 45, 49, 52, 56] ++
      [59, 63, 66, 70, 73, 76, 80, 83, 86, 89, 93, 96, 99, 102, 105, 108] ++
      [111, 114, 117, 120, 123, 126, 128, 131, 134, 137, 139, 142, 145, 147, 150, 152] ++
      [155, 157, 160, 162, 164, 167, 169, 171, 174, 176, 178, 180, 182, 184, 186, 189] ++
      [191, 192, 194, 196, 198, 200, 202, 204, 205, 207, 209, 210, 212, 214, 215, 217] ++
      [218, 220, 221, 223, 224, 225, 227, 228, 229, 230, 232, 233, 234, 235, 236, 237] ++
      [238, 239, 240, 241, 242, 243, 243, 244, 245, 246, 246, 247, 248, 248, 249, 249] ++
      [250, 250, 251, 251, 251, 252, 252, 252, 253, 253, 253, 253, 253, 253, 253, 254] := by
  decide

/-! ### One step of each event -/

/-- 2.8, sixth and ninth row: unlike polarities, and a true negative zero. -/
theorem test_tick_with_unlike_polarities :
    regsAfter (exec .tick (holding 39000 1023 0 255 1000 1023 511 255)) =
      some ⟨40000, 1023, 8, 0, 1000, 1023, 511, 255⟩ ∧
    regsAfter (exec .tick (holding 0 5 128 128 65535 5 64 64)) =
      some ⟨65535, 5, 127, 128, 65535, 5, 64, 64⟩ := by decide

/-- 2.8, fourth and eighth row: the fold at its maximum, and the slew going down. -/
theorem test_tick_folds_over :
    regsAfter (exec .tick (holding 16384 0 128 128 0 0 511 255)) =
      some ⟨16384, 0, 110, 128, 0, 0, 511, 255⟩ ∧
    regsAfter (exec .tick (holding 20000 700 90 91 480 10 200 100)) =
      some ⟨20480, 699, 62, 90, 480, 10, 200, 100⟩ := by decide

theorem test_wrpi_touches_no_phase :
    regsAfter (exec (.wrpi 65535) (holding 7 8 9 10 11 12 100 90)) = some ⟨7, 8, 9, 10, 65535, 12, 100, 90⟩ := by
  decide

theorem test_wrwf_writes_the_pair :
    regsAfter (exec (.wrwf 511 64) (holding 7 8 9 10 11 12 100 90)) = some ⟨7, 8, 9, 10, 11, 12, 511, 64⟩ := by
  decide

/-- R121's corner: equal factors are legal, one more is reserved. -/
theorem test_wrwf_reserved_operands :
    refusalOf (exec (.wrwf 100 101) State.reset) = some .reservedOperands ∧
    refusalOf (exec (.wrwf 100 100) State.reset) = none := by decide

/-- 2.9: the deadzone's edge, and the clamp. -/
theorem test_ldpitch_deadzone_and_clamp :
    (loadPitch testLut 0 600 (holding 0 0 0 0 9 0 64 64)).regs.pitchIncrement = 0 ∧
    (loadPitch testLut 0 601 State.reset).regs.pitchIncrement = 64 ∧
    (loadPitch testLut 0 800 State.reset).regs.pitchIncrement = 12800 ∧
    (loadPitch testLut 700 1000 State.reset).regs.pitchIncrement = 65472 := by decide

theorem test_lddetune_leaves_the_current_offset :
    regsAfter (exec (.lddetune 1023) (holding 7 8 9 10 11 12 100 90)) =
      some ⟨7, 8, 9, 10, 11, 1023, 100, 90⟩ := by decide

/-- 2.9: below and at the two corners of R124. -/
theorem test_ldfold_corners :
    regsAfter (exec (.ldfold 131) State.reset) = some ⟨0, 0, 128, 128, 0, 0, 129, 64⟩ ∧
    regsAfter (exec (.ldfold 132) State.reset) = some ⟨0, 0, 128, 128, 0, 0, 130, 65⟩ ∧
    regsAfter (exec (.ldfold 893) State.reset) = some ⟨0, 0, 128, 128, 0, 0, 510, 255⟩ ∧
    regsAfter (exec (.ldfold 1023) State.reset) = some ⟨0, 0, 128, 128, 0, 0, 511, 255⟩ := by decide

/-- R150, and RESET clears the trace. -/
theorem test_reset_gives_the_defaults :
    stateAfter (exec .reset { holding 7 8 9 10 11 12 100 90 with trace := [1, 2] }) = some State.reset := by decide

/-- 2.11: what a torn `WRWF 200, 100` over WrapFactor 256 shows. -/
theorem test_torn_wrwf_shows_456_or_0 :
    (stateAfter (exec (.wrwf 200 100) (tearing .low (holding 0 0 0 0 0 0 256 128)))).map (·.regs.wrapFactor) =
      some 456 ∧
    (stateAfter (exec (.wrwf 200 100) (tearing .high (holding 0 0 0 0 0 0 256 128)))).map (·.regs.wrapFactor) =
      some 0 := by decide

/-- 2.11: the four outcomes of the TICK with r = 100 and p = 0. -/
theorem test_torn_tick_outputs :
    [456, 0, 256, 200].map (fun w => (tickWires ⟨11008, 0, 128, 128, 0, 0, w, 100⟩).out) = [183, 128, 16, 71] := by
  decide

/-- P5: the third word has no meaning and the run is refused. -/
theorem test_reserved_word_is_refused :
    refusalOf (step (State.reset.withEvents [0x308240, 0x100000])) = some (.invalidWord 0x308240 .operands) := by
  decide

/-! ### Witnesses: the hypotheses of each statement, met together -/

theorem witness_DecodeAndEncodeAgree :
    (Instr.wrwf 511 255).wellFormed = true ∧ decode 0x31FFFF = .event (.wrwf 511 255) := by decide

theorem witness_DecodeAcceptsExactlyTheTablesWords :
    (Instr.wrwf 0 0).row ∈ opcodeTable ∧ (Instr.wrwf 0 0).row.fits 0x300000 = true ∧
    legalFoldPair ((0x300000#24).extractLsb' 0 9) ((0x300000#24).extractLsb' 9 8) = false := by decide

/-- Both branches: a TICK and an event that is none, with and without a write in flight. -/
theorem witness_StepRunsTheDecodedEvent :
    (State.reset.withEvents [0x100000]).events = [0x100000] ∧ decode 0x100000 = .event .tick ∧
    (State.reset.withEvents [0x100000]).halfWrites = [] ∧
    decode 0x2003E8 = .event (.wrpi 1000) ∧ Instr.wrpi 1000 ≠ .tick := by decide

/-- Both sides, for a state with a reserved word ahead, one with an event ahead, and one with nothing ahead. -/
theorem witness_ReservedWordsAreRefusedAllElseRuns :
    ReservedWord 0x308240 ∧ ¬ ReservedWord 0x308040 ∧ State.reset.events = [] := by
  unfold ReservedWord
  decide

/-- With nothing in flight, and with the high half of a pitch write in flight. -/
theorem witness_IdleBlockHoldsItsState :
    State.reset.events = [] ∧ State.reset.halfWrites = [] ∧
    (controlWrite (.pitchIncrement 0x1234) (tearing .low State.reset)).events = [] ∧
    (controlWrite (.pitchIncrement 0x1234) (tearing .low State.reset)).halfWrites = [.pitchHigh 0x12] := by decide

theorem witness_StepConsumesOneWordAndKeepsParams :
    ∃ t, step (State.reset.withEvents [0x100000]) = .next t := ⟨_, rfl⟩

/-- R22 at both ends of every range. -/
theorem witness_WiresStayInTheirRanges :
    Regs.Legal ⟨65535, 1023, 255, 255, 65535, 1023, 511, 255⟩ ∧ Regs.Legal ⟨0, 0, 0, 0, 0, 0, 64, 64⟩ := by
  unfold Regs.Legal Regs.FoldLegal
  decide

/-- Increments at both ends of their range; the second clause with the increment 65535. -/
theorem witness_MasterPhaseIsTheSumOfIncrements :
    let is : List Instr := [.wrpi 65535, .tick, .wrpi 0, .tick]
    let s := State.reset.withEvents (words is ++ [])
    let t := (holding 5 0 0 0 65535 0 64 64).withEvents (words (runEvents 2) ++ [0x100000])
    (∀ i ∈ is, i.wellFormed = true ∧ i ≠ .reset) ∧ s.events = words is ++ [] ∧
    t.halfWrites = [] ∧ t.events = words (runEvents 2) ++ [0x100000] ∧ 0 < t.regs.pitchIncrement.toNat := by decide

/-- From the largest offset down, past another control event, with part of a fold write in flight. -/
theorem witness_SlewConvergesWithoutOvershoot :
    let is : List Instr := [.tick, .wrpi 65535, .tick, .ldfold 894]
    let s := { (holding 0 1023 0 0 0 0 64 64).withEvents (words is ++ []) with halfWrites := [.negWrap 64] }
    (∀ i ∈ is, i.wellFormed = true ∧ i ≠ .reset) ∧ (∀ i ∈ is, ∀ k10, i ≠ .lddetune k10) ∧
    (settle s).regs.slaveOffsetTarget = s.regs.slaveOffsetTarget ∧ s.events = words is ++ [] := by
  refine ⟨by decide, ?_, by decide, by decide⟩
  simp

theorem witness_RestStateRepeatsOneSample :
    let s := (holding 9000 7 3 4 0 7 511 255).withEvents (words (runEvents (2 + 1)) ++ [])
    s.halfWrites = [] ∧ s.regs.pitchIncrement = 0 ∧ s.regs.slaveOffsetCurrent = s.regs.slaveOffsetTarget ∧
    s.events = words (runEvents (2 + 1)) ++ [] := by decide

theorem witness_SourceExampleGives129 :
    (holding 0 1 128 128 1000 1 64 64).regs = ⟨0, 1, 128, 128, 1000, 1, 64, 64⟩ ∧
    (holding 0 1 128 128 0 1 64 64).regs = ⟨0, 1, 128, 128, 0, 1, 64, 64⟩ := by decide

/-- Two ways to one phase and one offset. -/
theorem witness_OutputIsAFunctionOfPhaseAndOffset :
    let w₁ := tickWires ⟨0, 4, 1, 2, 1000, 9, 300, 150⟩
    let w₂ := tickWires ⟨500, 6, 7, 8, 500, 0, 300, 150⟩
    w₁.m = w₂.m ∧ w₁.c = w₂.c ∧ w₁.out = w₂.out := by decide

/-- The sine's corners: x = 0, 127, 128 and 255, and both half-cycles. -/
theorem witness_SineMagnitudeIsTheParabola :
    [0, 16256, 16384, 32767, 32768, 65535].map pSineMag = [0, 254, 254, 0, 0, 0] := by decide

theorem witness_SineIsSymmetric :
    (126 : BitVec 8) ≤ 127 ∧ (127 : BitVec 8).toNat ≤ 127 ∧ pSinePol 32767 = false ∧ pSinePol 32768 = true := by
  decide

/-- Both statements about the ring modulator: the largest magnitudes, and the largest product that vanishes. -/
theorem witness_RingModulator :
    (254 : Magnitude).toNat ≤ 254 ∧ (ringMag 254 254).toNat = 126 ∧ ringPol false true = true ∧
    (73 : Magnitude).toNat * (7 : Magnitude).toNat = 511 ∧ ringMag 73 7 = 0 ∧ ringMag 64 8 = 1 := by decide

/-- The last clause at 130 and 131: at 130 it applies. -/
theorem witness_UnisonSquaresTheMaster :
    let x : Regs := ⟨16384, 0, 0, 0, 0, 0, 130, 65⟩
    x.slaveOffsetCurrent = 0 ∧ x.slaveOffsetTarget = 0 ∧ x.wrapFactor.toNat ≤ 130 ∧ (tickWires x).out = 128 := by
  decide

/-- FoldIsARepeatingTriangle and FoldWrapsAndReflects: each clause at both ends of its range, with the values R95
gives. -/
theorem witness_FoldIsARepeatingTriangle :
    [0, 127, 128, 255, 256, 383, 384, 511].map (fun v0 => (foldPol v0 false, foldReflect (foldWrap v0))) =
      [(false, 0), (false, 127), (false, 127), (false, 0), (true, 0), (true, 127), (true, 127), (true, 0)] ∧
    [0, 127, 128, 255, 256, 383, 384, 511].map (· % 512) = [0, 127, 128, 255, 256, 383, 384, 511] ∧
    (127 : BitVec 8).toNat ≤ 127 ∧ 127 < (128 : BitVec 8).toNat ∧ foldReflect 128 = 127 ∧ foldReflect 255 = 0 := by
  decide

/-- The bounds of R91 are reached. -/
theorem witness_FoldDiffersByFactorOnly :
    (126 : Magnitude).toNat ≤ 126 ∧ foldScale 126 (foldSelect false 511 255) = 1006 ∧
    foldScale 126 (foldSelect true 511 255) = 502 := by decide

/-- The output conversion at the ends of both polarities (2.7). -/
theorem witness_OutputConversion :
    (127 : Magnitude).toNat ≤ 127 ∧ outConv 127 true = 0 ∧ outConv 0 true = 127 ∧ outConv 0 false = 128 ∧
    outConv 127 false = 255 := by decide

/-- R51's corners: the smallest and the largest pair, and one step outside each bound. -/
theorem witness_WrwfWritesTheFoldPair :
    (64 ≤ (64 : BitVec 9).toNat ∧ 64 ≤ (64 : BitVec 8).toNat ∧ (64 : BitVec 8).toNat ≤ (64 : BitVec 9).toNat) ∧
    (64 ≤ (511 : BitVec 9).toNat ∧ 64 ≤ (255 : BitVec 8).toNat ∧ (255 : BitVec 8).toNat ≤ (511 : BitVec 9).toNat) ∧
    ¬ (64 ≤ (63 : BitVec 9).toNat) ∧ ¬ (64 ≤ (63 : BitVec 8).toNat) ∧
    ¬ ((65 : BitVec 8).toNat ≤ (64 : BitVec 9).toNat) := by decide

theorem witness_LdpitchLooksUpTheEffectiveReading :
    effectivePitch 1023 600 ≤ effectivePitch 700 1000 ∧ effectivePitch 0 601 = 1 ∧ effectivePitch 0 600 = 0 ∧
    effectivePitch 0 1023 = 423 := by decide

/-- A control write's effect is met by a write that lands whole and by one that is torn. -/
theorem witness_ControlEffect :
    ControlEffect (fun x => { x with pitchIncrement := 0x1234 }) State.reset
      (controlWrite (.pitchIncrement 0x1234) State.reset) ∧
    ControlEffect (fun x => { x with pitchIncrement := 0x1234 }) (tearing .low State.reset)
      (controlWrite (.pitchIncrement 0x1234) (tearing .low State.reset)) := by
  unfold ControlEffect
  decide

/-- ControlEventsAreIdempotent, ControlEventsReadNoRegister and ControlWritesUseOneTear: each of the five, at a
boundary of its operand. -/
theorem witness_ControlEvents :
    let s := State.reset
    (∀ i ∈ [Instr.wrpi 65535, .wrwf 511 255, .ldpitch 0 601, .lddetune 1023, .ldfold 894],
      i.isControl = true ∧ i.wellFormed = true) ∧
    s.params.tornWrites = .atomic ∧ s.halfWrites = [] ∧ (tearing .low s).params.tornWrites = .bytewise := by decide

theorem witness_EventsWriteOnlyTheirOwnersRegisters :
    (∃ t, exec .tick State.reset = .next t) ∧ State.reset.halfWrites = [] ∧ Reg.wrapFactor ∉ Instr.tick.writes ∧
    (Instr.ldfold 3).isControl = true ∧ Reg.wrapFactor ∈ (Instr.ldfold 3).writes :=
  ⟨⟨_, rfl⟩, by decide⟩

/-- Both clauses: the duty code another event leaves alone, and the one a TICK overwrites. -/
theorem witness_NoEventReadsPwmDuty :
    (∃ t, step (State.reset.withEvents [0x100000]) = .next t ∧ t.regs.pwmDuty = 128) ∧
    (∃ t, step ((holding 0 0 1 2 0 0 64 64).withEvents [0x2003E8]) = .next t ∧ t.regs.pwmDuty = 2) :=
  ⟨⟨_, rfl, rfl⟩, ⟨_, rfl, rfl⟩⟩

theorem witness_PollSetsAllControlRegisters :
    let s := State.reset.withEvents (words (pollEvents 0 1023 1023 894) ++ [])
    s.params.tornWrites = .atomic ∧ s.halfWrites = [] ∧
    s.events = words (pollEvents 0 1023 1023 894) ++ [] := by decide

/-- A raw and a conditioned write, on a platform that tears. -/
theorem witness_TornPitchWriteIsOldNewOrMixed :
    let s := (tearing .low (holding 0 0 0 0 0xFFFF 0 64 64)).withEvents (encode (.wrpi 0) :: encode .tick :: [])
    let t := s.withEvents (encode (.ldpitch 0 601) :: encode .tick :: [])
    s.events = encode (.wrpi 0) :: encode .tick :: [] ∧ s.params.tornWrites = .bytewise ∧
    t.events = encode (.ldpitch 0 601) :: encode .tick :: [] ∧ t.params.tornWrites = .bytewise ∧
    ∃ cv10 knob10, Instr.ldpitch 0 601 = .ldpitch cv10 knob10 ∧
      Config.octaveLut.entry 1 = Config.octaveLut.entry (effectivePitch cv10 knob10) :=
  ⟨rfl, rfl, rfl, rfl, 0, 601, rfl, rfl⟩

theorem witness_TornDetuneWriteIsOldNewOrMixed :
    let s := (tearing .high (holding 0 512 0 0 0 0x0FF 64 64)).withEvents
      (encode (.lddetune 0x300) :: encode .tick :: [])
    s.events = encode (.lddetune 0x300) :: encode .tick :: [] ∧ s.params.tornWrites = .bytewise := by decide

/-- A raw write under both values of the parameter, a conditioned one, and two choices of first parts. -/
theorem witness_TornFoldWriteLandsAfterOneTick :
    let s := (tearing .neg (holding 0 0 0 0 0 0 256 128)).withEvents (encode (.wrwf 200 100) :: encode .tick :: [])
    let t := (holding 0 0 0 0 0 0 256 128).withEvents (encode (.wrwf 200 100) :: encode .tick :: [])
    let u := s.withEvents (encode (.ldfold 894) :: encode .tick :: [])
    legalFoldPair 200 100 = true ∧ s.events = encode (.wrwf 200 100) :: encode .tick :: [] ∧
    s.params.tornWrites = .bytewise ∧ t.params.tornWrites = .atomic ∧
    t.events = encode (.wrwf 200 100) :: encode .tick :: [] ∧
    (∃ k10, Instr.ldfold 894 = .ldfold k10 ∧ 511 = foldWrapFactor k10 ∧ 255 = foldNegWrapFactor 511) ∧
    u.events = encode (.ldfold 894) :: encode .tick :: [] ∧ u.params.tornWrites = .bytewise ∧
    (false || false || true) = true ∧ (true || false || false) = true :=
  ⟨by decide, rfl, rfl, rfl, rfl, ⟨894, rfl, by decide, by decide⟩, rfl, rfl, rfl, rfl⟩

theorem witness_ResetWritesEveryRegister :
    (holding 1 2 3 4 5 6 100 90).params = Config.defaultParams := by decide

theorem witness_FirstEmissionIsTheResetOutput :
    let cs : List Instr := [.wrpi 1000, .lddetune 1023]
    let ds : List Instr := [.wrwf 511 255]
    let s := State.reset.withEvents (words (.reset :: cs ++ .tick :: ds ++ [.tick]) ++ [])
    (∀ i ∈ cs, i.isControl = true ∧ i.wellFormed = true) ∧
    (∀ i ∈ ds, i.isControl = true ∧ i.wellFormed = true) ∧
    s.events = words (.reset :: cs ++ .tick :: ds ++ [.tick]) ++ [] := by decide

/-- One event of each of the three kinds OnlyTickEmits tells apart. -/
theorem witness_OnlyTickEmits :
    decode 0x100000 = .event .tick ∧ (decode 0x5003FF = .event (.lddetune 1023) ∧
    (Instr.lddetune 1023).isControl = true) ∧ decode 0xF00000 = .event .reset ∧
    (State.reset.withEvents [0x100000]).events = 0x100000 :: [] := by decide

/-- The offset at both ends of its range, going up, going down and resting; a control event and RESET. -/
theorem witness_SlaveOffsetIsRateLimited :
    slew 0 1023 = 1 ∧ slew 1023 0 = 1022 ∧ slew 1023 1023 = 1023 ∧
    ((holding 0 1023 0 0 0 0 64 64).withEvents [0x100000]).events = 0x100000 :: [] ∧
    decode 0x100000 = .event .tick ∧ (Instr.lddetune 0).isControl = true ∧ decode 0xF00000 = .event .reset := by
  decide

theorem witness_TraceIsTheOutputsDelayedByOne :
    let is : List Instr := [.tick, .wrpi 1000, .tick]
    let s := State.reset.withEvents (words (.reset :: is) ++ [])
    (∀ i ∈ is, i.wellFormed = true ∧ i ≠ .reset) ∧ s.events = words (.reset :: is) ++ [] := by decide

/-- EveryStepKeepsTheAtomicInvariant and EveryStepKeepsTheTornInvariant: with an event ahead that takes a step. -/
theorem witness_EveryStepKeepsTheInvariants :
    AtomicInv (State.reset.withEvents [0x31FFFF]) ∧ TornInv (State.reset.withEvents [0x31FFFF]) ∧
    ∃ t, step (State.reset.withEvents [0x31FFFF]) = .next t := by
  refine ⟨?_, ?_, _, rfl⟩
  · unfold AtomicInv Regs.Legal Regs.FoldLegal; decide
  · unfold TornInv Regs.Legal Regs.FoldLegal; decide

/-- A torn state in between: WrapFactor reads 0, yet the second invariant holds. -/
theorem witness_TornInv_while_torn :
    let s := { tearing .whole (holding 0 0 0 0 0 0 0 128) with halfWrites := [.wrapLow 200, .negWrap 100] }
    TornInv s ∧ ¬ s.regs.FoldLegal := by
  unfold TornInv Regs.Legal Regs.FoldLegal
  decide

theorem witness_ReachableStatesAreLegal :
    let s := State.reset.withEvents (encode .reset :: [0x5003FF])
    s.params.tornWrites = .atomic ∧ s.params.resetValues.Legal ∧ s.events = encode .reset :: [0x5003FF] ∧
    ∃ t, ReachesIn (1 + 1) s t := by
  refine ⟨rfl, ?_, rfl, _, rfl⟩
  unfold Regs.Legal Regs.FoldLegal
  decide

/-- RunsCompleteWithoutRefusal and RunsForgetWhatWasBeforeReset: a run of four of P1's events. -/
theorem witness_IsRun : IsRun (State.reset.withEvents [0xF00000, 0x2003E8, 0x308040, 0x100000]).events := by
  refine ⟨rfl, ?_⟩
  unfold ReservedWord
  intro w hw
  rcases List.mem_cons.mp hw with rfl | hw
  · decide
  rcases List.mem_cons.mp hw with rfl | hw
  · decide
  rcases List.mem_cons.mp hw with rfl | hw
  · decide
  · rw [List.mem_singleton.mp hw]
    decide

end Sys2Proof.Tests
end

section
/-! PROOFS. The family 10_state.md: the register invariants of R22, ownership (R23, R139), the rate limit of R12 and
what RESET forgets (R28). -/

namespace Sys2Proof.Proofs

open Sys2Proof Sys2Proof.Machine Sys2Proof.Laws

/-! ### Registers by name: which of them a write reaches -/

/-- The registers a control write names. -/
def writtenRegs : ControlWrite → List Reg
  | .pitchIncrement _ => [.pitchIncrement]
  | .slaveOffsetTarget _ => [.slaveOffsetTarget]
  | .foldPair _ _ => [.wrapFactor, .negWrapFactor]

/-- The register a half-write lands in. -/
def landingReg : HalfWrite → Reg
  | .pitchLow _ | .pitchHigh _ => .pitchIncrement
  | .targetLow _ | .targetHigh _ => .slaveOffsetTarget
  | .wrapLow _ | .wrapHigh _ => .wrapFactor
  | .negWrap _ => .negWrapFactor

/-- A written register holds the operand's value, whatever the registers held before. -/
theorem value_whole_of_mem {cw : ControlWrite} {r : Reg} (hr : r ∈ writtenRegs cw) (x y : Regs) :
    r.value (cw.whole x) = r.value (cw.whole y) := by
  cases cw with
  | pitchIncrement v => obtain rfl := List.mem_singleton.mp hr; rfl
  | slaveOffsetTarget v => obtain rfl := List.mem_singleton.mp hr; rfl
  | foldPair w n =>
    rcases List.mem_pair.mp hr with rfl | rfl <;> rfl

theorem value_whole_of_not_mem {cw : ControlWrite} {r : Reg} (hr : r ∉ writtenRegs cw) (x : Regs) :
    r.value (cw.whole x) = r.value x := by
  cases cw <;> cases r <;> simp [writtenRegs, ControlWrite.whole, Reg.value] at hr ⊢

theorem value_land {h : HalfWrite} {r : Reg} (hr : landingReg h ≠ r) (x : Regs) :
    r.value (h.land x) = r.value x := by
  cases h <;> cases r <;> simp [landingReg, HalfWrite.land, Reg.value] at hr ⊢

theorem value_landAll {hs : List HalfWrite} {r : Reg} (hr : ∀ h ∈ hs, landingReg h ≠ r) (x : Regs) :
    r.value (landAll hs x) = r.value x := by
  induction hs generalizing x with
  | nil => rfl
  | cons h hs ih =>
    obtain ⟨hh, hrest⟩ := List.forall_mem_cons.mp hr
    rw [landAll_cons, ih hrest, value_land hh]

/-- The parts a write is torn into land in the write's own registers. -/
theorem landingReg_mem_writtenRegs (cw : ControlWrite) : ∀ h ∈ cw.parts, landingReg h ∈ writtenRegs cw := by
  cases cw <;> simp [ControlWrite.parts, landingReg, writtenRegs]

theorem value_tornWrite {cw : ControlWrite} {r : Reg} (hr : r ∉ writtenRegs cw) (t : Tear) (s : State) :
    r.value (tornWrite cw t s).regs = r.value s.regs := by
  unfold tornWrite
  split
  · exact value_whole_of_not_mem hr s.regs
  · refine value_landAll (fun h hh hreg => hr ?_) s.regs
    exact hreg ▸ landingReg_mem_writtenRegs cw h (List.mem_of_mem_filter hh)

/-- A control write, whole or torn, leaves every other register as the earlier write in flight leaves it. -/
theorem value_controlWrite {cw : ControlWrite} {r : Reg} (hr : r ∉ writtenRegs cw) (s : State) :
    r.value (controlWrite cw s).regs = r.value (settle s).regs := by
  rcases controlWrite_regs_cases cw s with ⟨-, h⟩ | ⟨-, h⟩
  · rw [h, value_whole_of_not_mem hr]
  · rw [h, value_tornWrite hr]

/-- Under `atomic` a control write leaves the registers wholly written. -/
theorem controlWrite_atomic_regs (cw : ControlWrite) {s : State} (h : s.params.tornWrites = .atomic) :
    (controlWrite cw s).regs = cw.whole (settle s).regs := by
  rw [controlWrite_atomic cw s h, withRegs_regs]

/-- A control event is, where it is well formed, one control write of the registers R23 gives it. -/
theorem exec_control_writes {i : Instr} (hi : i.isControl = true) :
    ∃ cw : ControlWrite, writtenRegs cw = i.writes ∧
      (i.wellFormed = true → ∀ s : State, exec i s = .next (controlWrite cw s)) := by
  cases i with
  | tick => cases hi
  | reset => cases hi
  | wrpi v => exact ⟨.pitchIncrement v, rfl, fun _ _ => rfl⟩
  | wrwf w n => exact ⟨.foldPair w n, rfl, fun hw _ => if_pos hw⟩
  | ldpitch cv knob => exact ⟨.pitchIncrement _, rfl, fun _ _ => rfl⟩
  | lddetune k => exact ⟨.slaveOffsetTarget _, rfl, fun _ _ => rfl⟩
  | ldfold k => exact ⟨.foldPair _ _, rfl, fun _ _ => rfl⟩

/-- A TICK leaves the sampler's registers. -/
theorem value_storeWires_emit {r : Reg} (hr : r ∉ Instr.tick.writes) (w : Wires) (s : State) :
    r.value (storeWires w (emit s).regs) = r.value s.regs := by
  cases r <;> simp [Instr.writes, Reg.value] at hr ⊢

theorem mem_reset_writes (r : Reg) : r ∈ Instr.reset.writes := by
  cases r <;> decide

/-! ### What a step does is settled by the event words ahead -/

/-- The four things a step that goes on can do. -/
inductive StepKind where
  | hold | tick | reset
  | write (cw : ControlWrite)

/-- A step's control write writes values that R22 allows. -/
def StepKind.Legal : StepKind → Prop
  | .hold | .tick | .reset => True
  | .write cw => LegalWrite cw

/-- The state a step of this kind leaves. -/
def StepKind.next (s : State) : StepKind → State
  | .hold => settle s
  | .tick => { settle s with
      regs := storeWires (tickWires s.regs) { landAll s.halfWrites s.regs with pwmDuty := s.regs.output }
      trace := s.trace ++ [s.regs.output]
      events := s.events.tail }
  | .reset => { s with regs := s.params.resetValues, trace := [], halfWrites := [], events := s.events.tail }
  | .write cw => controlWrite cw (s.withEvents s.events.tail)

/-- A step that goes on is of one kind, and so is the step from any other state with the same words ahead. -/
theorem step_kind {s t : State} (h : step s = .next t) :
    ∃ k : StepKind, k.Legal ∧ t = k.next s ∧ ∀ u : State, u.events = s.events → step u = .next (k.next u) := by
  suffices hk : ∃ k : StepKind, k.Legal ∧ ∀ u : State, u.events = s.events → step u = .next (k.next u) by
    obtain ⟨k, hl, hu⟩ := hk
    exact ⟨k, hl, Host.Outcome.next.inj (h.symm.trans (hu s rfl)), hu⟩
  rcases step_cases h with ⟨he, -⟩ | ⟨w, rest, i, he, hd, hi⟩
  · exact ⟨.hold, trivial, fun u hu => step_idle (hu.trans he)⟩
  rcases hi with rfl | rfl | hi
  · refine ⟨.tick, trivial, fun u hu => ?_⟩
    rw [step_tick (hu.trans he) hd, StepKind.next, hu.trans he, List.tail_cons]
  · refine ⟨.reset, trivial, fun u hu => ?_⟩
    rw [step_reset (hu.trans he) hd, StepKind.next, hu.trans he, List.tail_cons]
  · obtain ⟨cw, hl, hx⟩ := exec_control i hi (wellFormed_of_decode hd)
    refine ⟨.write cw, hl, fun u hu => ?_⟩
    rw [step_of_write hx (hu.trans he) hd hi, StepKind.next, hu.trans he, List.tail_cons]

@[simp] theorem StepKind.next_params (k : StepKind) (s : State) : (k.next s).params = s.params := by
  cases k with
  | hold | tick | reset => rfl
  | write cw => exact controlWrite_params cw _

/-- Under `atomic` no step leaves a control write in flight (R36). -/
theorem StepKind.next_halfWrites (k : StepKind) {s : State} (h : s.params.tornWrites = .atomic) :
    (k.next s).halfWrites = [] := by
  cases k with
  | hold | tick | reset => rfl
  | write cw =>
    have ha : (s.withEvents s.events.tail).params.tornWrites = .atomic := h
    rw [StepKind.next, controlWrite_atomic cw _ ha, withRegs_halfWrites, settle_halfWrites]

/-! ### The invariants of R22 -/

theorem target_le_of_legal {x : Regs} (hx : x.Legal) : x.slaveOffsetTarget.toNat ≤ 1023 := by
  obtain ⟨-, htarget, -⟩ := hx
  exact htarget

/-- A legal control write keeps legal registers legal. -/
theorem legal_whole {cw : ControlWrite} {x : Regs} (hl : LegalWrite cw) (hx : x.Legal) : (cw.whole x).Legal := by
  obtain ⟨hfold, htarget, hcurrent⟩ := hx
  cases cw with
  | pitchIncrement v => exact ⟨hfold, htarget, hcurrent⟩
  | slaveOffsetTarget v => exact ⟨hfold, hl, hcurrent⟩
  | foldPair w n =>
    obtain ⟨hw, hn, hnw⟩ := hl
    exact ⟨⟨hw, Nat.le_of_lt_succ w.isLt, hn, Nat.le_of_lt_succ n.isLt, hnw⟩, htarget, hcurrent⟩

/-- The slew ends between where it began and its target (R62). -/
theorem slew_between (c t : Word) :
    min c.toNat t.toNat ≤ (slew c t).toNat ∧ (slew c t).toNat ≤ max c.toNat t.toNat := by
  rw [slew_toNat]
  split
  · omega
  · split <;> omega

/-- The slew moves by at most one unit (R62). -/
theorem slew_moves_at_most_one (c t : Word) :
    (slew c t).toNat ≤ c.toNat + 1 ∧ c.toNat ≤ (slew c t).toNat + 1 := by
  rw [slew_toNat]
  split
  · omega
  · split <;> omega

/-- Between two offsets in range the slew stays in range. -/
theorem slew_le {c t : Word} (hc : c.toNat ≤ 1023) (ht : t.toNat ≤ 1023) : (slew c t).toNat ≤ 1023 :=
  (slew_between c t).2.trans (max_le hc ht)

/-- An offset is in range exactly when its high byte is at most 3. -/
theorem offset_le_iff_high (v : Word) : v.toNat ≤ 1023 ↔ (v.extractLsb' 8 8).toNat ≤ 3 := by
  have := v.isLt
  rw [BitVec.extractLsb'_toNat, Nat.shiftRight_eq_div_pow]
  omega

/-- A high byte for SlaveOffsetTarget that keeps it within [0,1023]. -/
def TargetByteInRange : HalfWrite → Prop
  | .targetHigh b => b.toNat ≤ 3
  | .pitchLow _ | .pitchHigh _ | .targetLow _ | .wrapLow _ | .wrapHigh _ | .negWrap _ => True

theorem land_target_le {h : HalfWrite} {x : Regs} (hh : TargetByteInRange h)
    (hx : x.slaveOffsetTarget.toNat ≤ 1023) : (h.land x).slaveOffsetTarget.toNat ≤ 1023 := by
  cases h with
  | targetLow b =>
    rw [offset_le_iff_high] at hx ⊢
    simpa only [HalfWrite.land, high_of_append_16] using hx
  | targetHigh b =>
    rw [offset_le_iff_high]
    simpa only [HalfWrite.land, high_of_append_16, TargetByteInRange] using hh
  | pitchLow _ | pitchHigh _ | wrapLow _ | wrapHigh _ | negWrap _ => exact hx

theorem landAll_target_le {hs : List HalfWrite} {x : Regs} (hh : ∀ h ∈ hs, TargetByteInRange h)
    (hx : x.slaveOffsetTarget.toNat ≤ 1023) : (landAll hs x).slaveOffsetTarget.toNat ≤ 1023 := by
  induction hs generalizing x with
  | nil => exact hx
  | cons h hs ih =>
    obtain ⟨hfirst, hrest⟩ := List.forall_mem_cons.mp hh
    exact ih hrest (land_target_le hfirst hx)

theorem parts_in_range {cw : ControlWrite} (hl : LegalWrite cw) : ∀ h ∈ cw.parts, TargetByteInRange h := by
  cases cw with
  | pitchIncrement v => simp [ControlWrite.parts, TargetByteInRange]
  | slaveOffsetTarget v => simpa [ControlWrite.parts, TargetByteInRange] using (offset_le_iff_high v).mp hl
  | foldPair w n => simp [ControlWrite.parts, TargetByteInRange]

/-- A torn write of a legal value never shows a target out of range: its bytes are those of two offsets in range. -/
theorem tornWrite_target_le {cw : ControlWrite} {s : State} (hl : LegalWrite cw) (t : Tear)
    (hs : s.regs.Legal) : (tornWrite cw t s).regs.slaveOffsetTarget.toNat ≤ 1023 := by
  unfold tornWrite
  split
  · exact target_le_of_legal (legal_whole hl hs)
  · exact landAll_target_le (fun h hh => parts_in_range hl h (List.mem_of_mem_filter hh)) (target_le_of_legal hs)

theorem controlWrite_target_le {cw : ControlWrite} {s : State} (hl : LegalWrite cw)
    (hs : (settle s).regs.Legal) : (controlWrite cw s).regs.slaveOffsetTarget.toNat ≤ 1023 := by
  rcases controlWrite_regs_cases cw s with ⟨-, h⟩ | ⟨-, h⟩
  · rw [h]
    exact target_le_of_legal (legal_whole hl hs)
  · rw [h]
    exact tornWrite_target_le hl _ hs

/-- With nothing in flight the two invariants are one. -/
theorem atomicInv_iff (s : State) :
    AtomicInv s ↔ s.params.tornWrites = .atomic ∧ s.halfWrites = [] ∧ TornInv s := by
  refine and_congr_right fun _ => and_congr_right fun hh => and_congr_right fun _ => ?_
  rw [settle_of_nil s hh]
  exact ⟨fun hx => ⟨hx, target_le_of_legal hx⟩, And.left⟩

/-- With RESET_VALUES legal and nothing in flight, legal registers meet the torn invariant. -/
theorem tornInv_of_nil {s : State} (hp : s.params.resetValues.Legal) (hh : s.halfWrites = [])
    (hx : s.regs.Legal) : TornInv s := by
  refine ⟨hp, ?_, target_le_of_legal hx⟩
  rwa [settle_of_nil s hh]

/-- The slave offsets are in range even while a write is in flight. -/
theorem offsets_le_of_tornInv {s : State} (hs : TornInv s) :
    s.regs.slaveOffsetTarget.toNat ≤ 1023 ∧ s.regs.slaveOffsetCurrent.toNat ≤ 1023 := by
  obtain ⟨-, ⟨-, -, hcurrent⟩, htarget⟩ := hs
  rw [settle_regs, landAll_slaveOffsetCurrent] at hcurrent
  exact ⟨htarget, hcurrent⟩

/-- Every kind of step keeps the torn invariant. -/
theorem tornInv_next {k : StepKind} {s : State} (hk : k.Legal) (hs : TornInv s) : TornInv (k.next s) := by
  obtain ⟨htarget, hcurrent⟩ := offsets_le_of_tornInv hs
  obtain ⟨hp, hx, -⟩ := hs
  cases k with
  | hold => exact tornInv_of_nil hp rfl hx
  | reset => exact tornInv_of_nil hp rfl hp
  | tick =>
    obtain ⟨hfold, hlanded, -⟩ := hx
    exact tornInv_of_nil hp rfl ⟨hfold, hlanded, slew_le hcurrent htarget⟩
  | write cw =>
    refine ⟨?_, ?_, controlWrite_target_le hk hx⟩
    · rwa [StepKind.next_params]
    · rw [StepKind.next, settle_controlWrite_regs]
      exact legal_whole hk hx

/-- Settles O47: each of the four kinds of step keeps the invariant; a torn target mixes the bytes of two offsets in
range. -/
theorem everyStepKeepsTheTornInvariant : Obligations.EveryStepKeepsTheTornInvariant := by
  intro s t hs h
  obtain ⟨k, hk, rfl, -⟩ := step_kind h
  have ht : TornInv (k.next s) := tornInv_next hk hs
  exact ⟨ht, offsets_le_of_tornInv ht⟩

/-- Settles O46: under `atomic` nothing is ever in flight, so the torn invariant is this one. -/
theorem everyStepKeepsTheAtomicInvariant : Obligations.EveryStepKeepsTheAtomicInvariant := by
  intro s t hs h
  obtain ⟨hatomic, -, htorn⟩ := (atomicInv_iff s).mp hs
  obtain ⟨k, hk, rfl, -⟩ := step_kind h
  refine (atomicInv_iff _).mpr ⟨?_, k.next_halfWrites hatomic, tornInv_next hk htorn⟩
  rwa [StepKind.next_params]

/-! ### RESET and what a run reaches -/

theorem decode_encode_reset : decode (encode .reset) = .event .reset := by decide

/-- The step over the RESET that opens a run. -/
theorem step_encode_reset {s : State} {rest : List EventWord} (h : s.events = encode .reset :: rest) :
    step s = .next { s with regs := s.params.resetValues, trace := [], halfWrites := [], events := rest } :=
  step_reset h decode_encode_reset

theorem defaultResetValues_legal : Config.defaultResetValues.Legal := by
  unfold Regs.Legal Regs.FoldLegal
  decide

/-- Settles O41: the default reset values are legal and nothing is in flight. -/
theorem resetStateMeetsTheInvariant : Obligations.ResetStateMeetsTheInvariant := by
  have h : AtomicInv State.reset := ⟨rfl, rfl, defaultResetValues_legal, defaultResetValues_legal⟩
  obtain ⟨-, -, htorn⟩ := (atomicInv_iff _).mp h
  exact ⟨h, htorn, rfl, rfl⟩

/-- Settles O48: RESET leaves a state that meets the atomic invariant, and every step of the run keeps it. -/
theorem reachableStatesAreLegal : Obligations.ReachableStatesAreLegal := by
  intro s t rest k hatomic hp he hr
  obtain ⟨u, hu, hrun⟩ := run_succ_cases hr
  obtain rfl := Host.Outcome.next.inj ((step_encode_reset he).symm.trans hu)
  obtain ⟨-, -, -, ⟨hw, hw', hn, hn', hnw⟩, htarget, hcurrent⟩ :=
    run_keeps AtomicInv everyStepKeepsTheAtomicInvariant hrun ⟨hatomic, rfl, hp, hp⟩
  exact ⟨hw, hw', hn, hn', hnw, htarget, hcurrent⟩

/-- Settles O50: the RESET that opens the run takes both states to the same one. -/
theorem runsForgetWhatWasBeforeReset : Obligations.RunsForgetWhatWasBeforeReset := by
  intro s x tr hs k ⟨hhead, _⟩
  obtain ⟨rest, he⟩ := List.head?_eq_some_iff.mp hhead
  rw [run_succ (step_encode_reset he) k,
    run_succ (step_encode_reset (s := { s with regs := x, trace := tr, halfWrites := hs }) he) k]

/-! ### The slave offset -/

/-- Settles O44: a TICK slews, RESET loads the reset value, a control write does not reach the register. -/
theorem slaveOffsetIsRateLimited : Obligations.SlaveOffsetIsRateLimited := by
  intro s w rest i he hd
  cases hi : i.isControl with
  | true =>
    obtain ⟨cw, -, hstep⟩ := step_control he hd hi
    refine ⟨_, hstep, fun _ => controlWrite_slaveOffsetCurrent cw _, ?_, ?_⟩ <;> rintro rfl <;> cases hi
  | false =>
    cases i with
    | tick =>
      obtain ⟨hup, hdown⟩ := slew_moves_at_most_one s.regs.slaveOffsetCurrent s.regs.slaveOffsetTarget
      obtain ⟨hmin, hmax⟩ := slew_between s.regs.slaveOffsetCurrent s.regs.slaveOffsetTarget
      exact ⟨_, step_tick he hd, nofun, nofun, fun _ => ⟨hup, hdown, hmin, hmax⟩⟩
    | reset => exact ⟨_, step_reset he hd, nofun, fun _ => rfl, nofun⟩
    | wrpi _ | wrwf _ _ | ldpitch _ _ | lddetune _ | ldfold _ => cases hi

/-! ### Ownership -/

/-- Settles O34: both states get the same control write, whose values are the operands'. -/
theorem controlEventsReadNoRegister : Obligations.ControlEventsReadNoRegister := by
  intro i s x hi hw hatomic hh
  obtain ⟨cw, hwrites, hx⟩ := exec_control_writes hi
  refine ⟨_, _, hx hw s, hx hw { s with regs := x }, fun r hr => ?_, fun r hr => ?_⟩
  · rw [controlWrite_atomic_regs cw hatomic, controlWrite_atomic_regs cw (s := { s with regs := x }) hatomic]
    exact value_whole_of_mem (hwrites ▸ hr) _ _
  · rw [value_controlWrite (hwrites ▸ hr), settle_of_nil { s with regs := x } hh]

/-- An event that goes on with nothing in flight leaves the registers R23 does not let it write. -/
theorem exec_frame {i : Instr} {s t : State} (h : exec i s = .next t) (hh : s.halfWrites = []) {r : Reg}
    (hr : r ∉ i.writes) : r.value t.regs = r.value s.regs := by
  cases hi : i.isControl with
  | true =>
    obtain ⟨cw, hwrites, hx⟩ := exec_control_writes hi
    obtain rfl := Host.Outcome.next.inj ((hx (wellFormed_of_exec h) s).symm.trans h)
    rw [value_controlWrite (hwrites ▸ hr), settle_of_nil s hh]
  | false =>
    cases i with
    | tick =>
      obtain rfl := Host.Outcome.next.inj ((exec_tick s).symm.trans h)
      exact value_storeWires_emit hr _ s
    | reset => exact absurd (mem_reset_writes r) hr
    | wrpi _ | wrwf _ _ | ldpitch _ _ | lddetune _ | ldfold _ => cases hi

theorem mem_tick_writes_iff (r : Reg) : r ∈ Instr.tick.writes ↔ r.owner = .engine := by
  cases r <;> decide

theorem owner_of_mem_writtenRegs {cw : ControlWrite} {r : Reg} (hr : r ∈ writtenRegs cw) : r.owner = .sampler := by
  cases cw <;> cases r <;> simp [writtenRegs, Reg.owner] at hr ⊢

/-- Settles O35: the frame of each event, and the owners of what TICK and the control events write. -/
theorem eventsWriteOnlyTheirOwnersRegisters : Obligations.EventsWriteOnlyTheirOwnersRegisters := by
  refine ⟨fun i s t h hh r hr => exec_frame h hh hr, mem_tick_writes_iff, fun i r hi hr => ?_⟩
  obtain ⟨cw, hwrites, -⟩ := exec_control_writes hi
  exact owner_of_mem_writtenRegs (hwrites ▸ hr)

/-! ### The duty latch -/

/-- The state with another duty code. -/
def withDuty (d : Sample) (s : State) : State :=
  { s with regs := { s.regs with pwmDuty := d } }

theorem whole_withDuty (cw : ControlWrite) (x : Regs) (d : Sample) :
    cw.whole { x with pwmDuty := d } = { cw.whole x with pwmDuty := d } := by
  cases cw <;> rfl

theorem settle_withDuty (d : Sample) (s : State) : settle (withDuty d s) = withDuty d (settle s) := by
  simp only [settle, withDuty, landAll_withDuty]

theorem tornWrite_withDuty (cw : ControlWrite) (t : Tear) (d : Sample) (s : State) :
    tornWrite cw t (withDuty d s) = withDuty d (tornWrite cw t s) := by
  unfold tornWrite
  split
  · simp only [withDuty, whole_withDuty]
  · simp only [withDuty, landAll_withDuty]

/-- A control write, whole or torn, neither reads nor writes the duty latch. -/
theorem controlWrite_withDuty (cw : ControlWrite) (d : Sample) (s : State) :
    controlWrite cw (withDuty d s) = withDuty d (controlWrite cw s) := by
  cases h : s.params.tornWrites with
  | atomic =>
    rw [controlWrite_atomic cw s h, controlWrite_atomic cw (withDuty d s) h, settle_withDuty]
    simp only [withDuty, State.withRegs, whole_withDuty]
  | bytewise =>
    rw [controlWrite_bytewise cw s h, controlWrite_bytewise cw (withDuty d s) h, settle_withDuty,
      ← tornWrite_withDuty]
    rfl

/-- A step of any kind passes another duty code on, or overwrites it with the code it writes anyway. -/
theorem StepKind.next_withDuty (k : StepKind) (d : Sample) (s : State) :
    ∃ d', k.next (withDuty d s) = withDuty d' (k.next s) ∧ (d' = d ∨ d' = (k.next s).regs.pwmDuty) := by
  cases k with
  | hold => exact ⟨d, settle_withDuty d s, .inl rfl⟩
  | tick =>
    refine ⟨s.regs.output, ?_, .inr rfl⟩
    simp only [StepKind.next, withDuty, landAll_withDuty]
    rfl
  | reset => exact ⟨s.params.resetValues.pwmDuty, rfl, .inr rfl⟩
  | write cw => exact ⟨d, controlWrite_withDuty cw d (s.withEvents s.events.tail), .inl rfl⟩

/-- Settles O36: the same words are ahead of both states, so both steps are of one kind. -/
theorem noEventReadsPwmDuty : Obligations.NoEventReadsPwmDuty := by
  intro s t d h
  obtain ⟨k, -, rfl, hk⟩ := step_kind h
  obtain ⟨d', hnext, hd'⟩ := k.next_withDuty d s
  exact ⟨_, d', hk (withDuty d s) rfl, hnext, hd'⟩

end Sys2Proof.Proofs
end

section
/-! PROOFS. The family 20_memory.md: control writes whole (R36) and torn (R39). -/

namespace Sys2Proof.Proofs

open Sys2Proof Sys2Proof.Machine Sys2Proof.Laws

/-! ### An event's word decodes to the event -/

/-- An operand in its field of the event word, the field's lowest bit at `lo`. -/
def operandField {n : Nat} (v : BitVec n) (lo : Nat) : EventWord := v.setWidth 24 <<< lo

@[simp] theorem extract_operandField_same {n lo : Nat} (v : BitVec n) (h : lo + n ≤ 24) :
    (operandField v lo).extractLsb' lo n = v := by
  ext i hi
  have : lo + i < 24 := by omega
  have : i < 24 := by omega
  simp [operandField, *]

/-- Outside the operand's field the word has no bit. -/
@[simp] theorem extract_operandField_apart {n lo : Nat} (v : BitVec n) {start len : Nat}
    (h : start + len ≤ lo ∨ lo + n ≤ start) : (operandField v lo).extractLsb' start len = 0#len := by
  ext i hi
  rcases h with h | h
  · have : start + i < lo := by omega
    simp [operandField, this]
  · have : n ≤ start + i - lo := by omega
    simp [operandField, this]

theorem encode_wrpi (v : BitVec 16) : encode (.wrpi v) = 0x200000#24 ||| operandField v 0 := by
  rw [operandField, BitVec.shiftLeft_zero, encode]

theorem encode_wrwf (w : BitVec 9) (n : BitVec 8) :
    encode (.wrwf w n) = 0x300000#24 ||| operandField n 9 ||| operandField w 0 := by
  rw [operandField, operandField, BitVec.shiftLeft_zero, encode]

theorem encode_ldpitch (cv knob : BitVec 10) :
    encode (.ldpitch cv knob) = 0x400000#24 ||| operandField knob 10 ||| operandField cv 0 := by
  rw [operandField, operandField, BitVec.shiftLeft_zero, encode]

theorem encode_lddetune (k : BitVec 10) : encode (.lddetune k) = 0x500000#24 ||| operandField k 0 := by
  rw [operandField, BitVec.shiftLeft_zero, encode]

theorem encode_ldfold (k : BitVec 10) : encode (.ldfold k) = 0x600000#24 ||| operandField k 0 := by
  rw [operandField, BitVec.shiftLeft_zero, encode]

/-- The decoder reads each well-formed event back from its word (R57). -/
theorem decode_encode {i : Instr} (hw : i.wellFormed = true) : decode (encode i) = .event i := by
  cases i with
  | tick | reset => decide
  | wrpi v => simp [decode, encode_wrpi, BitVec.extractLsb'_or, Verdict.ifZero]
  | wrwf w n =>
    have hl : legalFoldPair w n = true := hw
    simp [decode, encode_wrwf, BitVec.extractLsb'_or, Verdict.ifZero, Verdict.ofFoldPair, hl]
  | ldpitch cv knob => simp [decode, encode_ldpitch, BitVec.extractLsb'_or]
  | lddetune k => simp [decode, encode_lddetune, BitVec.extractLsb'_or, Verdict.ifZero]
  | ldfold k => simp [decode, encode_ldfold, BitVec.extractLsb'_or, Verdict.ifZero]

/-! ### A control write twice, and the tears it uses -/

theorem whole_whole (cw : ControlWrite) (x : Regs) : cw.whole (cw.whole x) = cw.whole x := by
  cases cw <;> rfl

/-- Under `atomic` a control write leaves nothing in flight, so the same write again changes nothing. -/
theorem controlWrite_idempotent (cw : ControlWrite) {s : State} (h : s.params.tornWrites = .atomic) :
    controlWrite cw (controlWrite cw s) = controlWrite cw s := by
  have hp : (controlWrite cw s).params.tornWrites = .atomic := by rw [controlWrite_params, h]
  have hnil : (controlWrite cw s).halfWrites = [] := by
    rw [controlWrite_atomic cw s h, withRegs_halfWrites, settle_halfWrites]
  rw [controlWrite_atomic cw _ hp, settle_of_nil _ hnil, controlWrite_atomic cw s h, withRegs_regs, whole_whole]
  rfl

/-- Settles O33: a control event is one control write, which is idempotent under `atomic`. -/
theorem controlEventsAreIdempotent : Obligations.ControlEventsAreIdempotent := by
  intro i s hi hw hatomic
  obtain ⟨cw, -, hx⟩ := exec_control i hi hw
  refine ⟨controlWrite cw s, hx s, ?_⟩
  rw [hx, controlWrite_idempotent cw hatomic]

/-- Settles O32: only the tearing branch of a control write takes an entry from the list. -/
theorem controlWritesUseOneTear : Obligations.ControlWritesUseOneTear := by
  intro i s hi hw
  obtain ⟨cw, -, hx⟩ := exec_control i hi hw
  refine ⟨controlWrite cw s, hx s, fun hatomic => ?_, fun hbytewise => ?_⟩
  · rw [controlWrite_atomic cw s hatomic, withRegs_tears, settle_tears]
  · rw [controlWrite_bytewise cw s hbytewise, tornWrite_tears]

/-! ### A control event, its TICK, and the tear that decides what the TICK sees -/

/-- `step_write_then_tick` over the events' own words. -/
theorem step_encoded_write_then_tick {s : State} {i : Instr} {cw : ControlWrite} {rest : List EventWord}
    (hx : ∀ u, exec i u = .next (controlWrite cw u)) (hi : i.isControl = true)
    (h : s.events = encode i :: encode .tick :: rest) :
    ∃ a b, step s = .next a ∧ step a = .next b ∧
      ((s.params.tornWrites = .atomic ∧ a.regs = cw.whole (settle s).regs) ∨
        (s.params.tornWrites = .bytewise ∧
          a.regs = (tornWrite cw (s.tears.headD .whole) (settle s)).regs)) ∧
      b.regs = storeWires (tickWires a.regs) { cw.whole (settle s).regs with pwmDuty := a.regs.output } ∧
      b.halfWrites = [] :=
  step_write_then_tick hx h (decode_encode (wellFormed_of_exec (hx s))) hi (decode_encode rfl)

/-- Under `bytewise` a control write leaves the registers torn as the next entry says. -/
theorem controlWrite_bytewise_regs (cw : ControlWrite) {s : State} (h : s.params.tornWrites = .bytewise) :
    (controlWrite cw s).regs = (tornWrite cw (s.tears.headD .whole) (settle s)).regs := by
  rw [controlWrite_bytewise cw s h]
  exact tornWrite_regs_congr cw _ rfl

/-- Under `bytewise` the platform may choose any tear for the next control write. -/
theorem step_encoded_write_with_tear {s : State} {i : Instr} {cw : ControlWrite} {rest : List EventWord}
    (hx : ∀ u, exec i u = .next (controlWrite cw u)) (hi : i.isControl = true) (h : s.events = encode i :: rest)
    (hb : s.params.tornWrites = .bytewise) (tear : Tear) :
    ∃ a, step { s with tears := [tear] } = .next a ∧ a.regs = (tornWrite cw tear (settle s)).regs := by
  have hd : decode (encode i) = .event i := decode_encode (wellFormed_of_exec (hx s))
  have hregs := controlWrite_bytewise_regs cw (s := { s with tears := [tear], events := rest }) hb
  exact ⟨_, step_of_write hx (s := { s with tears := [tear] }) h hd hi,
    hregs.trans (tornWrite_regs_congr cw tear rfl)⟩

/-- A step over a control event leaves the engine's phase and offset. -/
theorem step_encoded_write_frame {s a : State} {i : Instr} {cw : ControlWrite} {rest : List EventWord}
    (hx : ∀ u, exec i u = .next (controlWrite cw u)) (hi : i.isControl = true) (h : s.events = encode i :: rest)
    (hstep : step s = .next a) :
    a.regs.masterPhase = s.regs.masterPhase ∧ a.regs.slaveOffsetCurrent = s.regs.slaveOffsetCurrent := by
  have hwrite := step_of_write hx h (decode_encode (wellFormed_of_exec (hx s))) hi
  obtain rfl := Host.Outcome.next.inj (hwrite.symm.trans hstep)
  exact ⟨controlWrite_masterPhase cw _, controlWrite_slaveOffsetCurrent cw _⟩

/-! ### A torn write of a 16-bit register -/

/-- What a 16-bit register shows between the two parts of a torn write. -/
def tornWord (t : Tear) (new old : Word) : Word :=
  match t.lowNow, t.highNow with
  | true, false => old.extractLsb' 8 8 ++ new.extractLsb' 0 8
  | false, true => new.extractLsb' 8 8 ++ old.extractLsb' 0 8
  | true, true | false, false => new

theorem tornWord_cases (t : Tear) (new old : Word) :
    tornWord t new old = new ∨ tornWord t new old = old.extractLsb' 8 8 ++ new.extractLsb' 0 8 ∨
      tornWord t new old = new.extractLsb' 8 8 ++ old.extractLsb' 0 8 := by
  unfold tornWord
  split
  · exact .inr (.inl rfl)
  · exact .inr (.inr rfl)
  · exact .inl rfl
  · exact .inl rfl

/-- Each of the three values is shown under some tear. -/
theorem exists_tornWord_eq {new old seen : Word}
    (h : seen ∈ [new, old.extractLsb' 8 8 ++ new.extractLsb' 0 8, new.extractLsb' 8 8 ++ old.extractLsb' 0 8]) :
    ∃ t, tornWord t new old = seen := by
  simp only [List.mem_cons, List.not_mem_nil, or_false] at h
  rcases h with rfl | rfl | rfl
  · exact ⟨.whole, rfl⟩
  · exact ⟨.low, rfl⟩
  · exact ⟨.high, rfl⟩

theorem tornWrite_pitchIncrement (v : Word) (t : Tear) (s : State) :
    (tornWrite (.pitchIncrement v) t s).regs.pitchIncrement = tornWord t v s.regs.pitchIncrement := by
  cases t <;> simp [tornWrite, ControlWrite.parts, List.filter, Tear.landsNow, Tear.lowNow, Tear.highNow, tornWord,
    HalfWrite.land, ControlWrite.whole]

theorem tornWrite_slaveOffsetTarget (v : Word) (t : Tear) (s : State) :
    (tornWrite (.slaveOffsetTarget v) t s).regs.slaveOffsetTarget = tornWord t v s.regs.slaveOffsetTarget := by
  cases t <;> simp [tornWrite, ControlWrite.parts, List.filter, Tear.landsNow, Tear.lowNow, Tear.highNow, tornWord,
    HalfWrite.land, ControlWrite.whole]

section WordWrite

/-! One argument for both registers of 16 bits: `get` reads the register, `cw` writes `v` to it. -/

variable {cw : ControlWrite} {get : Regs → Word} {v : Word} {s : State} {i : Instr} {rest : List EventWord}

/-- The TICK after a word write sees the new word or, on a platform that tears, a mix; then the write has landed. -/
theorem tick_sees_new_or_mixed_word (hwhole : ∀ x, get (cw.whole x) = v)
    (htorn : ∀ t u, get (tornWrite cw t u).regs = tornWord t v (get u.regs))
    (hx : ∀ u, exec i u = .next (controlWrite cw u)) (hi : i.isControl = true)
    (h : s.events = encode i :: encode .tick :: rest) :
    ∃ a b, step s = .next a ∧ step a = .next b ∧
      (get a.regs = v ∨
        (s.params.tornWrites = .bytewise ∧
          (get a.regs = (get (settle s).regs).extractLsb' 8 8 ++ v.extractLsb' 0 8 ∨
            get a.regs = v.extractLsb' 8 8 ++ (get (settle s).regs).extractLsb' 0 8))) ∧
      b.regs = storeWires (tickWires a.regs) { cw.whole (settle s).regs with pwmDuty := a.regs.output } ∧
      b.halfWrites = [] := by
  obtain ⟨a, b, hsa, hab, hseen, hb, hnil⟩ := step_encoded_write_then_tick hx hi h
  refine ⟨a, b, hsa, hab, ?_, hb, hnil⟩
  rcases hseen with ⟨-, ha⟩ | ⟨hbytewise, ha⟩
  · exact .inl (ha ▸ hwhole _)
  · rw [ha, htorn]
    exact (tornWord_cases _ _ _).imp_right fun hmix => ⟨hbytewise, hmix⟩

/-- On a platform that tears, the new word and both mixes are each seen under some tear. -/
theorem each_word_is_seen_under_some_tear
    (htorn : ∀ t u, get (tornWrite cw t u).regs = tornWord t v (get u.regs))
    (hx : ∀ u, exec i u = .next (controlWrite cw u)) (hi : i.isControl = true) (h : s.events = encode i :: rest)
    (hb : s.params.tornWrites = .bytewise) :
    ∀ seen ∈ [v, (get (settle s).regs).extractLsb' 8 8 ++ v.extractLsb' 0 8,
        v.extractLsb' 8 8 ++ (get (settle s).regs).extractLsb' 0 8],
      ∃ tear a, step { s with tears := [tear] } = .next a ∧ get a.regs = seen := by
  intro seen hseen
  obtain ⟨tear, rfl⟩ := exists_tornWord_eq hseen
  obtain ⟨a, hstep, ha⟩ := step_encoded_write_with_tear hx hi h hb tear
  exact ⟨tear, a, hstep, by rw [ha, htorn]⟩

end WordWrite

/-- Settles O38: WRPI and LDPITCH are the same word write, and the TICK advances the phase by the word it sees. -/
theorem tornPitchWriteIsOldNewOrMixed : Obligations.TornPitchWriteIsOldNewOrMixed := by
  intro s i v rest hiv he
  obtain ⟨hi, hx⟩ : i.isControl = true ∧ ∀ u, exec i u = .next (controlWrite (.pitchIncrement v) u) := by
    rcases hiv with rfl | ⟨cv, knob, rfl, rfl⟩ <;> exact ⟨rfl, fun _ => rfl⟩
  refine ⟨?_, each_word_is_seen_under_some_tear (tornWrite_pitchIncrement v) hx hi he⟩
  obtain ⟨a, b, hsa, hab, hseen, hb, hnil⟩ :=
    tick_sees_new_or_mixed_word (fun _ => rfl) (tornWrite_pitchIncrement v) hx hi he
  obtain ⟨hphase, -⟩ := step_encoded_write_frame hx hi he hsa
  refine ⟨a, b, hsa, hab, hseen, ?_, ?_, hnil⟩
  · rw [hb, storeWires_masterPhase, wires_m, phaseAdvance_toNat, hphase]
  · rw [hb, storeWires_pitchIncrement]
    rfl

/-- Settles O51: LDDETUNE is a word write, and the TICK slews toward the word it sees. -/
theorem tornDetuneWriteIsOldNewOrMixed : Obligations.TornDetuneWriteIsOldNewOrMixed := by
  intro s k rest he
  have hx : ∀ u, exec (.lddetune k) u = .next (controlWrite (.slaveOffsetTarget (detuneTarget k)) u) := fun _ => rfl
  refine ⟨?_, each_word_is_seen_under_some_tear (tornWrite_slaveOffsetTarget (detuneTarget k)) hx rfl he⟩
  obtain ⟨a, b, hsa, hab, hseen, hb, hnil⟩ :=
    tick_sees_new_or_mixed_word (fun _ => rfl) (tornWrite_slaveOffsetTarget (detuneTarget k)) hx rfl he
  obtain ⟨-, hcurrent⟩ := step_encoded_write_frame hx rfl he hsa
  refine ⟨a, b, hsa, hab, hseen, ?_, ?_, hnil⟩
  · rw [hb, storeWires_slaveOffsetCurrent, wires_c, slew_toNat, hcurrent]
  · rw [hb, storeWires_slaveOffsetTarget]
    rfl

/-! ### A torn write of the fold pair -/

/-- The fold registers show the new or the old value of each part: WrapFactor's low byte, its high bit, and
NegWrapFactor. -/
def ShowsFoldParts (w : BitVec 9) (n : BitVec 8) (old x : Regs) (low high neg : Bool) : Prop :=
  x.wrapFactor = (if high then w.extractLsb' 8 1 else old.wrapFactor.extractLsb' 8 1) ++
    (if low then w.extractLsb' 0 8 else old.wrapFactor.extractLsb' 0 8) ∧
  x.negWrapFactor = if neg then n else old.negWrapFactor

/-- With every part new the fold pair is written. -/
theorem showsFoldParts_all_iff (w : BitVec 9) (n : BitVec 8) (old x : Regs) :
    ShowsFoldParts w n old x true true true ↔ x.wrapFactor = w ∧ x.negWrapFactor = n := by
  simp [ShowsFoldParts]

/-- A torn fold write shows the parts that its tear lands at once; every tear lands one of the three. -/
theorem tornWrite_showsFoldParts (w : BitVec 9) (n : BitVec 8) (t : Tear) (s : State) :
    ShowsFoldParts w n s.regs (tornWrite (.foldPair w n) t s).regs t.lowNow t.highNow t.negNow := by
  cases t <;> simp [ShowsFoldParts, tornWrite, ControlWrite.parts, List.filter, Tear.landsNow, Tear.lowNow,
    Tear.highNow, Tear.negNow, HalfWrite.land]

/-- Every choice of parts but the empty one is what some tear lands at once. -/
theorem exists_tear_landing :
    ∀ low high neg : Bool, (low || high || neg) = true →
      ∃ t : Tear, t.lowNow = low ∧ t.highNow = high ∧ t.negNow = neg
  | true, true, true, _ => ⟨.whole, rfl, rfl, rfl⟩
  | true, false, false, _ => ⟨.low, rfl, rfl, rfl⟩
  | false, true, false, _ => ⟨.high, rfl, rfl, rfl⟩
  | false, false, true, _ => ⟨.neg, rfl, rfl, rfl⟩
  | true, true, false, _ => ⟨.lowHigh, rfl, rfl, rfl⟩
  | true, false, true, _ => ⟨.lowNeg, rfl, rfl, rfl⟩
  | false, true, true, _ => ⟨.highNeg, rfl, rfl, rfl⟩

/-- Settles O39: WRWF and LDFOLD are the same fold write, the TICK folds with the parts it sees, and the tear names
them. -/
theorem tornFoldWriteLandsAfterOneTick : Obligations.TornFoldWriteLandsAfterOneTick := by
  intro s i w n rest hiv he
  obtain ⟨hi, hx⟩ : i.isControl = true ∧ ∀ u, exec i u = .next (controlWrite (.foldPair w n) u) := by
    rcases hiv with ⟨rfl, hl⟩ | ⟨k, rfl, rfl, rfl⟩
    · exact ⟨rfl, fun _ => if_pos hl⟩
    · exact ⟨rfl, fun _ => rfl⟩
  refine ⟨?_, fun hbytewise low high neg hsome => ?_⟩
  · obtain ⟨a, b, hsa, hab, hseen, hb, hnil⟩ := step_encoded_write_then_tick hx hi he
    refine ⟨a, b, hsa, hab, ?_, ?_, ?_, ?_, ?_, hnil⟩
    · rcases hseen with ⟨-, ha⟩ | ⟨-, ha⟩
      · exact ⟨true, true, true, (showsFoldParts_all_iff w n _ _).mpr (ha ▸ ⟨rfl, rfl⟩)⟩
      · exact ⟨_, _, _, ha ▸ tornWrite_showsFoldParts w n _ (settle s)⟩
    · intro hatomic
      rcases hseen with ⟨-, ha⟩ | ⟨hbytewise, -⟩
      · exact ha ▸ ⟨rfl, rfl⟩
      · cases hatomic.symm.trans hbytewise
    all_goals rw [hb]; rfl
  · obtain ⟨tear, rfl, rfl, rfl⟩ := exists_tear_landing low high neg hsome
    obtain ⟨a, hstep, ha⟩ := step_encoded_write_with_tear hx hi he hbytewise tear
    exact ⟨tear, a, hstep, ha ▸ tornWrite_showsFoldParts w n tear (settle s)⟩

end Sys2Proof.Proofs
end

section
/-! PROOFS. The family 30_encoding.md: words and events stand for each other (R57), which words are reserved (R49 to
R51), what a step does with the next word (R45, R52), and POLL (R55). -/

namespace Sys2Proof.Proofs

open Sys2Proof Sys2Proof.Machine Sys2Proof.Laws

/-! ### A word is made up of its fields -/

theorem getElem_operandField_extract (w : EventWord) (lo n : Nat) {i : Nat} (hi : i < 24) :
    (operandField (w.extractLsb' lo n) lo)[i] = (w[i] && decide (lo ≤ i ∧ i < lo + n)) := by
  by_cases h : lo ≤ i ∧ i < lo + n
  · simp [operandField, h, show i - lo < n by omega, show ¬ i < lo by omega, BitVec.getLsbD_eq_getElem hi]
  · simp [operandField, h]
    omega

/-- Two fields side by side are one longer field. -/
theorem operandField_join (w : EventWord) {lo n hi m len : Nat} (hhi : hi = lo + n) (hlen : len = n + m) :
    operandField (w.extractLsb' hi m) hi ||| operandField (w.extractLsb' lo n) lo =
      operandField (w.extractLsb' lo len) lo := by
  ext i hi
  simp only [BitVec.getElem_or, getElem_operandField_extract, ← Bool.and_or_distrib_left, ← Bool.decide_or]
  congr 2
  exact propext (by omega)

/-- A word is its opcode and the twenty bits below it (R46). -/
theorem opcode_or_operands {w : EventWord} {c : BitVec 4} (hc : w.extractLsb' 20 4 = c) :
    operandField c 20 ||| operandField (w.extractLsb' 0 20) 0 = w := by
  rw [← hc, operandField_join w (hi := 20) (m := 4) rfl rfl]
  simp [operandField]

/-- A must-be-zero field below the opcode leaves the opcode and the operands below that field (R49). -/
theorem opcode_or_operands_below {w : EventWord} {c : BitVec 4} (hc : w.extractLsb' 20 4 = c)
    {n m : Nat} (hz : w.extractLsb' n m = 0#m) (hn : 20 = n + m) :
    operandField c 20 ||| operandField (w.extractLsb' 0 n) 0 = w := by
  have hlow : operandField (w.extractLsb' 0 20) 0 = operandField (w.extractLsb' 0 n) 0 := by
    rw [← operandField_join w (Nat.zero_add n).symm hn, hz, operandField, BitVec.setWidth_zero,
      BitVec.zero_shiftLeft, BitVec.zero_or]
  rw [← hlow, opcode_or_operands hc]

/-! ### A word with a row's fixed fields is the word of the event read from its operands -/

theorem encode_tick_of_fields {w : EventWord} (hc : w.extractLsb' 20 4 = 0x1#4) (hz : w.extractLsb' 0 20 = 0#20) :
    encode .tick = w := by
  rw [← opcode_or_operands hc, hz]
  rfl

theorem encode_reset_of_fields {w : EventWord} (hc : w.extractLsb' 20 4 = 0xF#4) (hz : w.extractLsb' 0 20 = 0#20) :
    encode .reset = w := by
  rw [← opcode_or_operands hc, hz]
  rfl

theorem encode_wrpi_of_fields {w : EventWord} (hc : w.extractLsb' 20 4 = 0x2#4) (hz : w.extractLsb' 16 4 = 0#4) :
    encode (.wrpi (w.extractLsb' 0 16)) = w :=
  (encode_wrpi _).trans (opcode_or_operands_below hc hz rfl)

theorem encode_wrwf_of_fields {w : EventWord} (hc : w.extractLsb' 20 4 = 0x3#4) (hz : w.extractLsb' 17 3 = 0#3) :
    encode (.wrwf (w.extractLsb' 0 9) (w.extractLsb' 9 8)) = w := by
  rw [encode_wrwf, BitVec.or_assoc, operandField_join w (len := 17) (Nat.zero_add 9).symm rfl]
  exact opcode_or_operands_below hc hz rfl

theorem encode_ldpitch_of_fields {w : EventWord} (hc : w.extractLsb' 20 4 = 0x4#4) :
    encode (.ldpitch (w.extractLsb' 0 10) (w.extractLsb' 10 10)) = w := by
  rw [encode_ldpitch, BitVec.or_assoc, operandField_join w (len := 20) (Nat.zero_add 10).symm rfl]
  exact opcode_or_operands (c := 0x4#4) hc

theorem encode_lddetune_of_fields {w : EventWord} (hc : w.extractLsb' 20 4 = 0x5#4)
    (hz : w.extractLsb' 10 10 = 0#10) : encode (.lddetune (w.extractLsb' 0 10)) = w :=
  (encode_lddetune _).trans (opcode_or_operands_below hc hz rfl)

theorem encode_ldfold_of_fields {w : EventWord} (hc : w.extractLsb' 20 4 = 0x6#4)
    (hz : w.extractLsb' 10 10 = 0#10) : encode (.ldfold (w.extractLsb' 0 10)) = w :=
  (encode_ldfold _).trans (opcode_or_operands_below hc hz rfl)

/-- The word an event decodes from is the event's own word (R57). -/
theorem encode_of_decode {w : EventWord} {i : Instr} (h : decode w = .event i) : encode i = w := by
  unfold decode at h
  split at h
  case h_1 hc =>
    obtain ⟨hz, hi⟩ := ifZero_event h
    cases hi
    exact encode_tick_of_fields (BitVec.eq_of_toNat_eq hc) hz
  case h_2 hc =>
    obtain ⟨hz, hi⟩ := ifZero_event h
    cases hi
    exact encode_reset_of_fields (BitVec.eq_of_toNat_eq hc) hz
  case h_3 hc =>
    obtain ⟨hz, hi⟩ := ifZero_event h
    cases hi
    exact encode_wrpi_of_fields (BitVec.eq_of_toNat_eq hc) hz
  case h_4 hc =>
    obtain ⟨hz, hpair⟩ := ifZero_event h
    obtain ⟨-, rfl⟩ := ofFoldPair_event hpair
    exact encode_wrwf_of_fields (BitVec.eq_of_toNat_eq hc) hz
  case h_5 hc =>
    cases h
    exact encode_ldpitch_of_fields (BitVec.eq_of_toNat_eq hc)
  case h_6 hc =>
    obtain ⟨hz, hi⟩ := ifZero_event h
    cases hi
    exact encode_lddetune_of_fields (BitVec.eq_of_toNat_eq hc) hz
  case h_7 hc =>
    obtain ⟨hz, hi⟩ := ifZero_event h
    cases hi
    exact encode_ldfold_of_fields (BitVec.eq_of_toNat_eq hc) hz
  case h_8 => cases h

/-! ### The opcode table -/

/-- An event's word has the fixed bits of the event's row, and the row stands in the table. -/
theorem encodedOnRow (i : Instr) : EncodedOnRow.Statement i := by
  cases i with
  | tick => exact EncodedOnRow.tick
  | wrpi v => exact EncodedOnRow.wrpi v
  | wrwf w n => exact EncodedOnRow.wrwf w n
  | ldpitch cv knob => exact EncodedOnRow.ldpitch cv knob
  | lddetune k => exact EncodedOnRow.lddetune k
  | ldfold k => exact EncodedOnRow.ldfold k
  | reset => exact EncodedOnRow.reset

/-- In a field that the row's mask covers, a word that fits has the row's bits. -/
theorem extract_of_fits {row : OpcodeRow} {w : EventWord} (hf : row.fits w = true) {lo n : Nat}
    (hm : row.mask.extractLsb' lo n = BitVec.allOnes n) : w.extractLsb' lo n = row.pattern.extractLsb' lo n := by
  have hw : w &&& row.mask = row.pattern := eq_of_beq hf
  rw [← hw, BitVec.extractLsb'_and, hm, BitVec.and_allOnes]

/-- Every row fixes the opcode. -/
theorem mask_opcode : ∀ row ∈ opcodeTable, row.mask.extractLsb' 20 4 = BitVec.allOnes 4 := by decide

theorem opcodes_differ :
    opcodeTable.Pairwise fun a b => a.pattern.extractLsb' 20 4 ≠ b.pattern.extractLsb' 20 4 := by decide

/-- No word fits two rows: their opcodes differ (R46, R47). -/
theorem opcodeTable_disjoint :
    opcodeTable.Pairwise fun a b => ∀ w : EventWord, ¬ (a.fits w = true ∧ b.fits w = true) := by
  refine opcodes_differ.imp_of_mem fun ha hb hne w ⟨hfa, hfb⟩ => hne ?_
  rw [← extract_of_fits hfa (mask_opcode _ ha), extract_of_fits hfb (mask_opcode _ hb)]

/-- Settles O1: the decoder reads back what was encoded, a decoded event's fields make up the word, and the rows'
opcodes differ. -/
theorem decodeAndEncodeAgree : Obligations.DecodeAndEncodeAgree :=
  ⟨fun _ => decode_encode, fun _ _ h => ⟨encode_of_decode h, wellFormed_of_decode h⟩, opcodeTable_disjoint⟩

/-- A word with a row's fixed bits is the word of an event on the row, well formed or not. -/
theorem exists_encode_of_fits {row : OpcodeRow} (hrow : row ∈ opcodeTable) {w : EventWord}
    (hf : row.fits w = true) : ∃ i : Instr, encode i = w ∧ i.row = row := by
  have hop := extract_of_fits hf (mask_opcode row hrow)
  simp only [opcodeTable, List.mem_cons, List.not_mem_nil, or_false] at hrow
  rcases hrow with rfl | rfl | rfl | rfl | rfl | rfl | rfl
  · exact ⟨_, encode_tick_of_fields hop (extract_of_fits hf (by decide)), rfl⟩
  · exact ⟨_, encode_wrpi_of_fields hop (extract_of_fits hf (by decide)), rfl⟩
  · exact ⟨_, encode_wrwf_of_fields hop (extract_of_fits hf (by decide)), rfl⟩
  · exact ⟨_, encode_ldpitch_of_fields hop, rfl⟩
  · exact ⟨_, encode_lddetune_of_fields hop (extract_of_fits hf (by decide)), rfl⟩
  · exact ⟨_, encode_ldfold_of_fields hop (extract_of_fits hf (by decide)), rfl⟩
  · exact ⟨_, encode_reset_of_fields hop (extract_of_fits hf (by decide)), rfl⟩

/-- Only operands outside R51 keep an event's word from decoding. -/
theorem eq_wrwf_of_encode_invalid {i : Instr} {why : Reserved} (h : decode (encode i) = .invalid why) :
    ∃ wf9 nwf8, i = .wrwf wf9 nwf8 ∧ legalFoldPair wf9 nwf8 = false := by
  have hw : i.wellFormed ≠ true := fun hw => by simp [decode_encode hw] at h
  cases i with
  | wrwf wf9 nwf8 => exact ⟨wf9, nwf8, rfl, eq_false_of_ne_true hw⟩
  | tick | reset | wrpi _ | ldpitch _ _ | lddetune _ | ldfold _ => exact absurd rfl hw

theorem extract_encode_wrwf (wf9 : BitVec 9) (nwf8 : BitVec 8) :
    (encode (.wrwf wf9 nwf8)).extractLsb' 0 9 = wf9 ∧ (encode (.wrwf wf9 nwf8)).extractLsb' 9 8 = nwf8 := by
  simp [encode_wrwf, BitVec.extractLsb'_or]

/-- Settles O3: a word that decodes is its event's, which has the row's bits; an invalid word on a row is the word of
an ill-formed event. -/
theorem decodeAcceptsExactlyTheTablesWords : Obligations.DecodeAcceptsExactlyTheTablesWords := by
  intro w
  cases hd : decode w with
  | event i =>
    obtain ⟨hfits, hrow⟩ := encodedOnRow i
    exact .inl ⟨i, rfl, encode_of_decode hd ▸ hfits, hrow⟩
  | invalid why =>
    refine .inr ⟨⟨why, rfl⟩, fun row hrow hf => ?_⟩
    obtain ⟨i, rfl, rfl⟩ := exists_encode_of_fits hrow hf
    obtain ⟨wf9, nwf8, rfl, hillegal⟩ := eq_wrwf_of_encode_invalid hd
    obtain ⟨hwf, hnwf⟩ := extract_encode_wrwf wf9 nwf8
    exact ⟨rfl, by rw [hwf, hnwf, hillegal]⟩

/-! ### Reserved words -/

theorem extract_eq_zero_iff (w : EventWord) (lo n : Nat) :
    w.extractLsb' lo n = 0#n ↔ w.toNat / 2 ^ lo % 2 ^ n = 0 := by
  rw [← BitVec.toNat_inj, BitVec.extractLsb'_toNat, Nat.shiftRight_eq_div_pow, BitVec.toNat_ofNat, Nat.zero_mod]

theorem ifZero_invalid_iff {n : Nat} (field : BitVec n) (v : Verdict) :
    (∃ why, v.ifZero field = .invalid why) ↔ field ≠ 0#n ∨ ∃ why, v = .invalid why := by
  by_cases h : field = 0#n <;> simp [Verdict.ifZero, h]

theorem ofFoldPair_invalid_iff (wf9 : BitVec 9) (nwf8 : BitVec 8) :
    (∃ why, Verdict.ofFoldPair wf9 nwf8 = .invalid why) ↔
      ¬ (64 ≤ wf9.toNat ∧ 64 ≤ nwf8.toNat ∧ nwf8.toNat ≤ wf9.toNat) := by
  have hl : legalFoldPair wf9 nwf8 = true ↔ 64 ≤ wf9.toNat ∧ 64 ≤ nwf8.toNat ∧ nwf8.toNat ≤ wf9.toNat := by
    simp [legalFoldPair, and_assoc]
  rw [← hl]
  by_cases h : legalFoldPair wf9 nwf8 = true <;> simp [Verdict.ofFoldPair, h]

theorem opcode_toNat (w : EventWord) : (w.extractLsb' 20 4).toNat = w.toNat / 2 ^ 20 := by
  have := w.isLt
  rw [BitVec.extractLsb'_toNat, Nat.shiftRight_eq_div_pow]
  omega

/-- The decoder finds invalid what R49 to R51 reserve by the numbers in the word's fields. -/
theorem decode_invalid_iff (w : EventWord) : (∃ why, decode w = .invalid why) ↔ ReservedWord w := by
  have hlt := (w.extractLsb' 20 4).isLt
  unfold decode ReservedWord
  rw [← opcode_toNat]
  generalize (w.extractLsb' 20 4).toNat = opcode at hlt ⊢
  split
  case h_4 =>
    simp [ifZero_invalid_iff, extract_eq_zero_iff, ofFoldPair_invalid_iff, Nat.shiftRight_eq_div_pow]
  case h_8 h1 hF h2 h3 h4 h5 h6 =>
    rw [imp_false] at h1 hF h2 h3 h4 h5 h6
    have hfree : opcode = 0x0 ∨ 0x7 ≤ opcode ∧ opcode ≤ 0xE := by omega
    exact iff_of_true ⟨.opcode, rfl⟩ (.inl hfree)
  all_goals simp [ifZero_invalid_iff, extract_eq_zero_iff]

/-- Settles O5: the decoder's verdict on the word ahead decides, and a well-formed event goes on. -/
theorem reservedWordsAreRefusedAllElseRuns : Obligations.ReservedWordsAreRefusedAllElseRuns := by
  intro s
  cases he : s.events with
  | nil => exact .inr ⟨nofun, _, step_idle he⟩
  | cons w rest =>
    cases hd : decode w with
    | invalid why => exact .inl ⟨w, rest, rfl, (decode_invalid_iff w).mp ⟨why, hd⟩, why, step_invalid he hd⟩
    | event i =>
      obtain ⟨u, hu⟩ := exec_wellFormed i (wellFormed_of_decode hd) (s.withEvents rest)
      refine .inr ⟨fun w' rest' he' hr => ?_, afterEvent i u, by rw [step_event he hd, hu, onNext]⟩
      cases he'
      obtain ⟨why, hinvalid⟩ := (decode_invalid_iff w).mpr hr
      cases hd.symm.trans hinvalid

/-! ### The step and the next word -/

/-- No event but TICK lets a write in flight land (R39). -/
theorem afterEvent_of_ne_tick {i : Instr} (hi : i ≠ .tick) (s : State) : afterEvent i s = s := by
  cases i with
  | tick => exact absurd rfl hi
  | reset | wrpi _ | wrwf _ _ | ldpitch _ _ | lddetune _ | ldfold _ => rfl

theorem onNext_of_id {g : State → State} (hg : ∀ s, g s = s) (o : Host.Outcome State Fault Refusal) :
    onNext g o = o := by
  cases o with
  | next s => rw [onNext, hg]
  | fault r => cases r
  | refused r => rfl

/-- Settles O4: the step is `exec` with the landing after it, which only a TICK does and only a write in flight
feels. -/
theorem stepRunsTheDecodedEvent : Obligations.StepRunsTheDecodedEvent := by
  intro s w rest i he hd
  have htick : i = .tick →
      ∃ t, exec .tick { s with events := rest } = .next t ∧ step s = .next (settle t) := by
    rintro rfl
    exact ⟨_, exec_tick _, step_event he hd⟩
  refine ⟨fun hi => ?_, htick, fun hh hi => ?_⟩
  · rw [step_event he hd, onNext_of_id (afterEvent_of_ne_tick hi)]
    rfl
  · obtain ⟨t, ht, hstep⟩ := htick hi
    have hnil : t.halfWrites = [] := by
      obtain rfl := Host.Outcome.next.inj ht
      exact hh
    rw [hstep, ht, settle_of_nil t hnil]

/-- Settles O7: an idle step finds no word to consume, and the step of each kind of event consumes one. -/
theorem stepConsumesOneWordAndKeepsParams : Obligations.StepConsumesOneWordAndKeepsParams := by
  intro s t h
  rcases step_cases h with ⟨he, rfl⟩ | ⟨w, rest, i, he, hd, hi⟩
  · exact ⟨by rw [he]; exact he, rfl⟩
  rw [he, List.tail_cons]
  rcases hi with rfl | rfl | hi
  · obtain rfl := Host.Outcome.next.inj ((step_tick he hd).symm.trans h)
    exact ⟨rfl, rfl⟩
  · obtain rfl := Host.Outcome.next.inj ((step_reset he hd).symm.trans h)
    exact ⟨rfl, rfl⟩
  · obtain ⟨cw, -, hwrite⟩ := step_control he hd hi
    obtain rfl := Host.Outcome.next.inj (hwrite.symm.trans h)
    exact ⟨controlWrite_events cw _, controlWrite_params cw _⟩

/-! ### POLL -/

/-- Under `atomic`, with nothing in flight, a control event's word changes the written registers alone (R36). -/
theorem step_encoded_write_atomic {s : State} {i : Instr} {cw : ControlWrite} {rest : List EventWord}
    (hx : ∀ u, exec i u = .next (controlWrite cw u)) (hi : i.isControl = true) (h : s.events = encode i :: rest)
    (hatomic : s.params.tornWrites = .atomic) (hh : s.halfWrites = []) :
    step s = .next { s with events := rest, regs := cw.whole s.regs } := by
  have hs : settle (s.withEvents rest) = s.withEvents rest := settle_of_nil _ hh
  rw [step_of_write hx h (decode_encode (wellFormed_of_exec (hx s))) hi,
    controlWrite_atomic cw (s.withEvents rest) hatomic, hs]
  rfl

/-- A run over a control event's word goes on from the written registers. -/
theorem reachesIn_of_encoded_write {s t : State} {i : Instr} {cw : ControlWrite} {rest : List EventWord} {k : Nat}
    (hx : ∀ u, exec i u = .next (controlWrite cw u)) (hi : i.isControl = true) (h : s.events = encode i :: rest)
    (hatomic : s.params.tornWrites = .atomic) (hh : s.halfWrites = [])
    (hrun : ReachesIn k { s with events := rest, regs := cw.whole s.regs } t) : ReachesIn (k + 1) s t :=
  (run_succ (step_encoded_write_atomic hx hi h hatomic hh) k).trans hrun

/-- Settles O37: POLL is three control writes, each of registers of its own. -/
theorem pollSetsAllControlRegisters : Obligations.PollSetsAllControlRegisters := by
  intro s cv pk dk fk rest hatomic hh he
  refine reachesIn_of_encoded_write (i := .ldpitch cv pk) (fun _ => rfl) rfl he hatomic hh ?_
  refine reachesIn_of_encoded_write (i := .lddetune dk) (fun _ => rfl) rfl rfl hatomic hh ?_
  refine reachesIn_of_encoded_write (i := .ldfold fk) (fun _ => rfl) rfl rfl hatomic hh ?_
  exact run_zero _

/-! ### Words written out -/

theorem decode_eq_of_encode_eq {w : EventWord} {i : Instr} (hw : i.wellFormed = true) (h : encode i = w) :
    decode w = .event i :=
  h ▸ decode_encode hw

/-- Settles O2: each word is the encoding of its event. -/
theorem writtenOutWordsDecode : Obligations.WrittenOutWordsDecode := by
  refine ⟨?_, ?_, ?_, ?_, ?_, ?_, ?_, ?_⟩ <;> exact decode_eq_of_encode_eq rfl rfl

end Sys2Proof.Proofs
end

section
/-! PROOFS. The family 40_phase_accumulators.md: the phase (R60, R61), the slew (R62, R63), the slave phase (R64) and
what the sample depends on (R65). -/

namespace Sys2Proof.Proofs

open Sys2Proof Sys2Proof.Machine Sys2Proof.Laws

/-! ### One TICK -/

/-- Settles O8: the phase and offset wires are `phaseAdvance` and `slew`; the rest is emission. -/
theorem tickAdvancesSlewsAndEmits : Obligations.TickAdvancesSlewsAndEmits := by
  intro s
  exact ⟨_, exec_tick s, phaseAdvance_toNat _ _, slew_toNat _ _, rfl, rfl⟩

/-- From equal phase and offset on, every wire up to the ring modulator is equal (R65). -/
theorem ring_wires_congr {x y : Regs} (hm : (tickWires x).m = (tickWires y).m)
    (hc : (tickWires x).c = (tickWires y).c) :
    (tickWires x).r = (tickWires y).r ∧ (tickWires x).p = (tickWires y).p := by
  have hsp : (tickWires x).sp = (tickWires y).sp := by rw [wires_sp, wires_sp, hm, hc]
  constructor
  · simp only [wires_r, wires_mM, wires_mS, hm, hsp]
  · simp only [wires_p, wires_pM, wires_pS, hm, hsp]

/-- The fold adds the two factors to what the sample depends on. -/
theorem wires_out_congr {x y : Regs} (hm : (tickWires x).m = (tickWires y).m)
    (hc : (tickWires x).c = (tickWires y).c) (hw : x.wrapFactor = y.wrapFactor)
    (hn : x.negWrapFactor = y.negWrapFactor) : (tickWires x).out = (tickWires y).out := by
  obtain ⟨hr, hp⟩ := ring_wires_congr hm hc
  have hv0 : (tickWires x).v0 = (tickWires y).v0 := by simp only [wires_v0, wires_f, hr, hp, hw, hn]
  simp only [wires_out, wires_v, wires_v1, wires_p', hv0, hp]

/-- Settles O15: a TICK stores its wires, and the sample's wire is a function of phase, offset and factors. -/
theorem outputIsAFunctionOfPhaseAndOffset : Obligations.OutputIsAFunctionOfPhaseAndOffset := by
  intro s₁ s₂
  exact ⟨_, _, exec_tick s₁, exec_tick s₂, wires_out_congr⟩

/-! ### The slave phase -/

/-- Bits 24 and above of the product weigh a multiple of 65536 after the shift (R64). -/
theorem slavePhase_toNat_low24 (m c : Word) :
    (slavePhase m c).toNat = (m.toNat * c.toNat % 2 ^ 24 / 256 + m.toNat) % 65536 := by
  have hcut : m.toNat * c.toNat % 2 ^ 24 / 256 = m.toNat * c.toNat / 256 % 65536 :=
    Nat.mod_mul_right_div_self _ 256 65536
  rw [slavePhase_toNat, hcut, Nat.mod_add_mod]

theorem slavePhase_zero_right (m : Word) : slavePhase m 0 = m :=
  BitVec.eq_of_toNat_eq (by simp [slavePhase_toNat, Nat.mod_eq_of_lt m.isLt])

theorem slavePhase_zero_left (c : Word) : slavePhase 0 c = 0 :=
  BitVec.eq_of_toNat_eq (by simp [slavePhase_toNat])

/-- At the offset 256 the slave runs at twice the master's rate. -/
theorem slavePhase_256_toNat (m : Word) : (slavePhase m 256).toNat = 2 * m.toNat % 65536 := by
  have h256 : (256 : Word).toNat = 256 := rfl
  rw [slavePhase_toNat, h256, Nat.mul_div_cancel _ (by decide), Nat.two_mul]

/-- Settles O18: the closed form, its form over 24 product bits, and the three corners. -/
theorem slavePhaseIsHardSynced : Obligations.SlavePhaseIsHardSynced := fun M C =>
  ⟨slavePhase_toNat M C, slavePhase_toNat_low24 M C, slavePhase_zero_right M, slavePhase_zero_left C,
    slavePhase_256_toNat M⟩

/-! ### The step over an event's own word, and the states along a sequence of events -/

/-- The step over a well-formed event's word goes on and consumes the word. -/
theorem step_encoded {s : State} {i : Instr} {rest : List EventWord} (hw : i.wellFormed = true)
    (h : s.events = encode i :: rest) : ∃ t, step s = .next t ∧ t.events = rest := by
  obtain ⟨u, hu⟩ := exec_wellFormed i hw (s.withEvents rest)
  have hstep : step s = .next (afterEvent i u) := by rw [step_event h (decode_encode hw), hu, onNext]
  obtain ⟨hevents, -⟩ := stepConsumesOneWordAndKeepsParams _ _ hstep
  exact ⟨_, hstep, by rw [hevents, h, List.tail_cons]⟩

theorem step_encoded_tick {s : State} {rest : List EventWord} (h : s.events = encode .tick :: rest) :
    step s = .next (StepKind.tick.next s) := by
  rw [step_tick h (decode_encode rfl), StepKind.next, h, List.tail_cons]

/-- The step over any event but RESET is a TICK or a control write of the event's registers. -/
theorem step_encoded_cases {s t : State} {i : Instr} {rest : List EventWord} (hw : i.wellFormed = true)
    (hi : i ≠ .reset) (h : s.events = encode i :: rest) (hstep : step s = .next t) :
    (i = .tick ∧ t = StepKind.tick.next s) ∨
      (i ≠ .tick ∧ ∃ cw, writtenRegs cw = i.writes ∧ t = controlWrite cw (s.withEvents rest)) := by
  have hd := decode_encode hw
  cases hc : i.isControl with
  | true =>
    obtain ⟨cw, hwrites, hx⟩ := exec_control_writes hc
    have hwrite := step_of_write (hx hw) h hd hc
    refine .inr ⟨?_, cw, hwrites, Host.Outcome.next.inj (hstep.symm.trans hwrite)⟩
    rintro rfl
    cases hc
  | false =>
    cases i with
    | tick =>
      exact .inl ⟨rfl, Host.Outcome.next.inj (hstep.symm.trans (step_encoded_tick h))⟩
    | reset => exact absurd rfl hi
    | wrpi _ | wrwf _ _ | ldpitch _ _ | lddetune _ | ldfold _ => cases hc

/-- The states along a sequence of well-formed events: before the k-th step the k-th event's word is ahead. -/
theorem exists_trajectory {is : List Instr} (hw : ∀ i ∈ is, i.wellFormed = true) {s : State}
    {rest : List EventWord} (he : s.events = words is ++ rest) :
    ∃ f : Nat → State, f 0 = s ∧ ∀ k (hk : k < is.length),
      step (f k) = .next (f (k + 1)) ∧ ∃ ws, (f k).events = encode is[k] :: ws := by
  induction is generalizing s with
  | nil => exact ⟨fun _ => s, rfl, nofun⟩
  | cons i is ih =>
    obtain ⟨hi, his⟩ := List.forall_mem_cons.mp hw
    obtain ⟨t, hstep, ht⟩ := step_encoded hi he
    obtain ⟨f, rfl, hf⟩ := ih his ht
    refine ⟨fun k => k.casesOn s f, rfl, fun k hk => ?_⟩
    cases k with
    | zero => exact ⟨hstep, _, he⟩
    | succ k => exact hf k (Nat.lt_of_succ_lt_succ hk)

/-! ### The master phase -/

theorem tick_next_masterPhase (s : State) : (StepKind.tick.next s).regs.masterPhase.toNat =
    (s.regs.masterPhase.toNat + s.regs.pitchIncrement.toNat) % 65536 :=
  phaseAdvance_toNat _ _

theorem tick_next_pitchIncrement {s : State} (hh : s.halfWrites = []) :
    (StepKind.tick.next s).regs.pitchIncrement = s.regs.pitchIncrement := by
  rw [StepKind.next, hh]
  rfl

/-- What an event adds to the phase: a TICK the increment it finds, any other event nothing (R60). -/
theorem masterPhase_of_step {s t : State} {i : Instr} {rest : List EventWord} (hw : i.wellFormed = true)
    (hi : i ≠ .reset) (h : s.events = encode i :: rest) (hstep : step s = .next t) :
    t.regs.masterPhase.toNat =
      (s.regs.masterPhase.toNat + if i = .tick then s.regs.pitchIncrement.toNat else 0) % 65536 := by
  rcases step_encoded_cases hw hi h hstep with ⟨rfl, rfl⟩ | ⟨hne, cw, -, rfl⟩
  · rw [if_pos rfl, tick_next_masterPhase]
  · rw [if_neg hne, controlWrite_masterPhase, withEvents_regs, Nat.add_zero, Nat.mod_eq_of_lt (BitVec.isLt _)]

/-- A phase that each TICK advances by the increment it finds is the start plus the sum of those increments. -/
theorem masterPhase_eq_sum {is : List Instr} {f : Nat → State}
    (hf : ∀ k (hk : k < is.length), (f (k + 1)).regs.masterPhase.toNat =
      ((f k).regs.masterPhase.toNat + if is[k] = .tick then (f k).regs.pitchIncrement.toNat else 0) % 65536)
    (n : Nat) (hn : n ≤ is.length) :
    (f n).regs.masterPhase.toNat = ((f 0).regs.masterPhase.toNat +
      (((List.range n).filter (fun k => is[k]? == some .tick)).map
        (fun k => (f k).regs.pitchIncrement.toNat)).sum) % 65536 := by
  induction n with
  | zero => exact (Nat.mod_eq_of_lt (BitVec.isLt _)).symm
  | succ n ih =>
    have hlt : n < is.length := hn
    rw [hf n hlt, ih hlt.le, Nat.mod_add_mod, List.range_succ]
    by_cases htick : is[n] = .tick <;> simp [htick, hlt, Nat.add_assoc]

/-- With nothing in flight, n TICKs advance the phase n times by the one increment. -/
theorem reachesIn_ticks {n : Nat} {s : State} {rest : List EventWord} (hh : s.halfWrites = [])
    (he : s.events = words (runEvents n) ++ rest) :
    ∃ t, ReachesIn n s t ∧ t.regs.masterPhase.toNat =
      (s.regs.masterPhase.toNat + s.regs.pitchIncrement.toNat * n) % 65536 := by
  induction n generalizing s with
  | zero => exact ⟨s, run_zero s, (Nat.mod_eq_of_lt (BitVec.isLt _)).symm⟩
  | succ n ih =>
    obtain ⟨t, hrun, ht⟩ := ih (s := StepKind.tick.next s) rfl (congrArg List.tail he)
    refine ⟨t, (run_succ (step_encoded_tick he) n).trans hrun, ?_⟩
    rw [ht, tick_next_masterPhase, tick_next_pitchIncrement hh, Nat.mod_add_mod, Nat.add_right_comm, Nat.mul_succ,
      Nat.add_assoc]

/-- A phase below the modulus comes back exactly where the advance is a multiple of it. -/
theorem phase_returns_iff {p a : Nat} (hp : p < 65536) : (p + a) % 65536 = p ↔ 65536 ∣ a := by
  omega

/-- R61's period: a multiple of `i` is one of 65536 exactly at the multiples of `65536 / gcd(i, 65536)`. -/
theorem dvd_mul_iff_period_dvd (m i n : Nat) (hm : 0 < m) : m ∣ i * n ↔ m / Nat.gcd i m ∣ n := by
  rw [Nat.div_dvd_iff_dvd_mul (Nat.gcd_dvd_right i m) (Nat.gcd_pos_of_pos_right i hm), Nat.gcd_comm,
    Nat.dvd_gcd_mul_iff_dvd_mul]

/-- Settles O11: each step's advance summed along the events; n TICKs with one increment advance by its multiple. -/
theorem masterPhaseIsTheSumOfIncrements : Obligations.MasterPhaseIsTheSumOfIncrements := by
  refine ⟨fun s is rest hgood he => ?_, fun s n rest hh he _ => ?_⟩
  · obtain ⟨f, rfl, hf⟩ := exists_trajectory (fun i hi => (hgood i hi).1) he
    refine ⟨f, rfl, fun k hk => (hf k hk).1, masterPhase_eq_sum (fun k hk => ?_) is.length le_rfl⟩
    obtain ⟨hstep, ws, hws⟩ := hf k hk
    obtain ⟨hw, hi⟩ := hgood is[k] (List.getElem_mem hk)
    exact masterPhase_of_step hw hi hws hstep
  · obtain ⟨t, hrun, ht⟩ := reachesIn_ticks hh he
    refine ⟨t, hrun, ?_⟩
    rw [← BitVec.toNat_inj, ht, phase_returns_iff (BitVec.isLt _), dvd_mul_iff_period_dvd _ _ _ (by decide)]

/-! ### The slew -/

/-- The register holds the target, and so it will when the write in flight has landed. -/
def HoldsTarget (target : Word) (s : State) : Prop :=
  s.regs.slaveOffsetTarget = target ∧ (settle s).regs.slaveOffsetTarget = target

theorem holdsTarget_of_nil {s : State} (hh : s.halfWrites = []) : HoldsTarget s.regs.slaveOffsetTarget s :=
  ⟨rfl, by rw [settle_of_nil s hh]⟩

theorem target_whole_of_not_mem {cw : ControlWrite} (h : Reg.slaveOffsetTarget ∉ writtenRegs cw) (x : Regs) :
    (cw.whole x).slaveOffsetTarget = x.slaveOffsetTarget :=
  BitVec.eq_of_toNat_eq (value_whole_of_not_mem h x)

theorem target_controlWrite_of_not_mem {cw : ControlWrite} (h : Reg.slaveOffsetTarget ∉ writtenRegs cw) (s : State) :
    (controlWrite cw s).regs.slaveOffsetTarget = (settle s).regs.slaveOffsetTarget :=
  BitVec.eq_of_toNat_eq (value_controlWrite h s)

/-- Only LDDETUNE and RESET write the target. -/
theorem target_not_mem_writes {i : Instr} (hr : i ≠ .reset) (hd : ∀ k10, i ≠ .lddetune k10) :
    Reg.slaveOffsetTarget ∉ i.writes := by
  cases i with
  | reset => exact absurd rfl hr
  | lddetune k => exact absurd rfl (hd k)
  | tick | wrpi _ | wrwf _ _ | ldpitch _ _ | ldfold _ => simp [Instr.writes]

/-- An event that leaves the target alone keeps it held; a TICK slews toward it and no other event moves the offset. -/
theorem offset_of_step {s t : State} {i : Instr} {rest : List EventWord} {target : Word}
    (hw : i.wellFormed = true) (hr : i ≠ .reset) (hd : ∀ k10, i ≠ .lddetune k10)
    (h : s.events = encode i :: rest) (hstep : step s = .next t) (hs : HoldsTarget target s) :
    HoldsTarget target t ∧ t.regs.slaveOffsetCurrent =
      if i = .tick then slew s.regs.slaveOffsetCurrent target else s.regs.slaveOffsetCurrent := by
  obtain ⟨hnow, hlanded⟩ := hs
  rcases step_encoded_cases hw hr h hstep with ⟨rfl, rfl⟩ | ⟨hne, cw, hwrites, rfl⟩
  · rw [if_pos rfl, ← hnow]
    exact ⟨⟨hlanded.trans hnow.symm, hlanded.trans hnow.symm⟩, rfl⟩
  · have hcw : Reg.slaveOffsetTarget ∉ writtenRegs cw := hwrites ▸ target_not_mem_writes hr hd
    refine ⟨⟨?_, ?_⟩, ?_⟩
    · rw [target_controlWrite_of_not_mem hcw]
      exact hlanded
    · rw [settle_controlWrite_regs, target_whole_of_not_mem hcw]
      exact hlanded
    · rw [if_neg hne, controlWrite_slaveOffsetCurrent, withEvents_regs]

/-- Each slew takes one unit off the distance, down to 0 (R62). -/
theorem slew_distance (c t : Word) :
    Int.natAbs (((slew c t).toNat : Int) - t.toNat) = Int.natAbs ((c.toNat : Int) - t.toNat) - 1 := by
  rw [slew_toNat]
  split
  · omega
  · split <;> omega

/-- The offset `d` is `n` slews from `c` on its way to `t`: nearer by `n`, down to 0, and never beyond. -/
def SlewedBy (n : Nat) (c t d : Word) : Prop :=
  Int.natAbs ((d.toNat : Int) - t.toNat) = Int.natAbs ((c.toNat : Int) - t.toNat) - n ∧
    min c.toNat t.toNat ≤ d.toNat ∧ d.toNat ≤ max c.toNat t.toNat

theorem slewedBy_zero (c t : Word) : SlewedBy 0 c t c :=
  ⟨rfl, min_le_left _ _, le_max_left _ _⟩

/-- A way from `c` that begins with a slew. -/
theorem slewedBy_succ {n : Nat} {c t d : Word} (h : SlewedBy n (slew c t) t d) : SlewedBy (n + 1) c t d := by
  obtain ⟨hdist, hmin, hmax⟩ := h
  obtain ⟨hmin₁, hmax₁⟩ := slew_between c t
  rw [slew_distance] at hdist
  refine ⟨?_, ?_, ?_⟩ <;> omega

/-- Over events that leave the target alone, the offset is slewed once for each TICK. -/
theorem reachesIn_slewed {is : List Instr} {target : Word} {s : State} {rest : List EventWord}
    (hgood : ∀ i ∈ is, i.wellFormed = true ∧ i ≠ .reset ∧ ∀ k10, i ≠ .lddetune k10)
    (hs : HoldsTarget target s) (he : s.events = words is ++ rest) :
    ∃ t, ReachesIn is.length s t ∧ HoldsTarget target t ∧
      SlewedBy (is.count .tick) s.regs.slaveOffsetCurrent target t.regs.slaveOffsetCurrent := by
  induction is generalizing s with
  | nil => exact ⟨s, run_zero s, hs, slewedBy_zero _ _⟩
  | cons i is ih =>
    obtain ⟨⟨hw, hr, hd⟩, hrest⟩ := List.forall_mem_cons.mp hgood
    obtain ⟨u, hstep, hu⟩ := step_encoded hw he
    obtain ⟨hheld, hcurrent⟩ := offset_of_step hw hr hd he hstep hs
    obtain ⟨t, hrun, ht, hslewed⟩ := ih hrest hheld hu
    refine ⟨t, (run_succ hstep is.length).trans hrun, ht, ?_⟩
    rw [hcurrent] at hslewed
    by_cases htick : i = .tick
    · rw [if_pos htick] at hslewed
      rw [htick, List.count_cons_self]
      exact slewedBy_succ hslewed
    · rw [if_neg htick] at hslewed
      rwa [List.count_cons_of_ne htick]

/-- As many slews as the distance is wide arrive at the target. -/
theorem eq_target_of_slewedBy {n : Nat} {c t d : Word} (h : SlewedBy n c t d)
    (hn : Int.natAbs ((c.toNat : Int) - t.toNat) ≤ n) : d = t := by
  obtain ⟨hdist, -, -⟩ := h
  apply BitVec.eq_of_toNat_eq
  omega

theorem runEvents_leave_target (n : Nat) :
    ∀ i ∈ runEvents n, i.wellFormed = true ∧ i ≠ .reset ∧ ∀ k10, i ≠ .lddetune k10 := by
  intro i hi
  obtain rfl := List.eq_of_mem_replicate hi
  exact ⟨rfl, nofun, nofun⟩

/-- With nothing in flight, LDDETUNE and enough TICKs bring the offset to the reading. -/
theorem ticks_reach_reading {s : State} {k10 : Reading} {n : Nat} {rest : List EventWord}
    (hatomic : s.params.tornWrites = .atomic) (hh : s.halfWrites = [])
    (hn : Int.natAbs ((s.regs.slaveOffsetCurrent.toNat : Int) - k10.toNat) ≤ n)
    (he : s.events = words (.lddetune k10 :: runEvents n) ++ rest) :
    ∃ t, ReachesIn (n + 1) s t ∧ t.regs.slaveOffsetCurrent = detuneTarget k10 := by
  obtain ⟨t, hrun, -, hslewed⟩ := reachesIn_slewed (runEvents_leave_target n)
    (s := { s with events := words (runEvents n) ++ rest,
                   regs := ControlWrite.whole s.regs (.slaveOffsetTarget (detuneTarget k10)) })
    (holdsTarget_of_nil hh) rfl
  rw [runEvents, List.count_replicate_self] at hslewed
  rw [runEvents, List.length_replicate] at hrun
  refine ⟨t, reachesIn_of_encoded_write (i := .lddetune k10) (fun _ => rfl) rfl he hatomic hh hrun,
    eq_target_of_slewedBy hslewed ?_⟩
  rwa [detuneTarget_toNat, whole_slaveOffsetCurrent]

/-- Settles O12: the offset is slewed once for each TICK, and 1023 slews cover the way from 0 to 1023. -/
theorem slewConvergesWithoutOvershoot : Obligations.SlewConvergesWithoutOvershoot := by
  refine ⟨fun s is rest hgood hlanded he => ?_, ?_⟩
  · obtain ⟨t, hrun, ⟨ht, -⟩, hdist, hmin, hmax⟩ := reachesIn_slewed hgood ⟨rfl, hlanded⟩ he
    exact ⟨t, hrun, ht, hdist, hmin, hmax⟩
  · obtain ⟨t, hrun, ht⟩ := ticks_reach_reading (k10 := 1023) (n := 1023)
      (s := State.reset.withEvents (words (.lddetune 1023 :: runEvents 1023))) rfl rfl (by decide)
      (List.append_nil _).symm
    exact ⟨t, hrun, by rw [ht, detuneTarget_toNat]; rfl⟩

end Sys2Proof.Proofs
end

section
/-! PROOFS. The family 41_sine_approximator.md: the magnitude (R70, R71), the polarity (R72) and the symmetries between
and within the half-cycles (R73, R74). -/

namespace Sys2Proof.Proofs

open Sys2Proof Sys2Proof.Machine Sys2Proof.Laws

/-! ### The parabola -/

/-- The distance from the maximum 127 * 128 is (x - 127) * (x - 128), which vanishes at the two middle indexes only. -/
theorem parabola_eq_max_iff {x : Nat} (hx : x ≤ 255) : x * (255 - x) = 16256 ↔ x = 127 ∨ x = 128 := by
  constructor
  · intro h
    zify [hx] at h
    have hroots : ((x : Int) - 127) * (x - 128) = 0 := by linear_combination -h
    rcases mul_eq_zero.mp hroots with hroot | hroot
    · exact .inl (by omega)
    · exact .inr (by omega)
  · rintro (rfl | rfl) <;> rfl

/-- Two values of the parabola differ by (y - x) * (255 - x - y), which is not negative up to the middle. -/
theorem parabola_mono {x y : Nat} (hxy : x ≤ y) (hy : y ≤ 127) : x * (255 - x) ≤ y * (255 - y) := by
  have hx255 : x ≤ 255 := by omega
  have hy255 : y ≤ 255 := by omega
  zify [hx255, hy255]
  have hdiff : 0 ≤ ((y : Int) - x) * (255 - x - y) := mul_nonneg (by omega) (by omega)
  linarith

/-! ### The magnitude -/

theorem pSineMag_eq_max_iff (p : Word) :
    (pSineMag p).toNat = 254 ↔ p.toNat / 128 % 256 = 127 ∨ p.toNat / 128 % 256 = 128 := by
  have hindex : p.toNat / 128 % 256 ≤ 255 := by omega
  have hle := parabola_le _ hindex
  rw [← parabola_eq_max_iff hindex, pSineMag_toNat]
  omega

theorem pSineMag_eq_zero_of_index (p : Word) (h : p.toNat / 128 % 256 = 0 ∨ p.toNat / 128 % 256 = 255) :
    pSineMag p = 0 := by
  apply BitVec.eq_of_toNat_eq
  rw [pSineMag_toNat]
  rcases h with h | h <;> rw [h] <;> rfl

/-- Settles O16: the closed form, its bound and the roots of the distance from the bound. -/
theorem sineMagnitudeIsTheParabola : Obligations.SineMagnitudeIsTheParabola :=
  fun p => ⟨pSineMag_toNat p, pSineMag_le p, pSineMag_eq_max_iff p, pSineMag_eq_zero_of_index p⟩

/-! ### The symmetries -/

theorem clearBit15_toNat (p : Word) : (p % 32768).toNat = p.toNat % 32768 := by
  simp

/-- R73: the index does not contain bit 15. -/
theorem sineIndex_clearBit15 (p : Word) : sineIndex (p % 32768) = sineIndex p := by
  apply BitVec.eq_of_toNat_eq
  rw [sineIndex_toNat, sineIndex_toNat, clearBit15_toNat]
  omega

/-- R70: bit i of the index is bit i + 7 of the phase; the 16-bit shift loses none of the eight. -/
theorem sineIndex_getLsbD (p : Word) {i : Nat} (hi : i < 8) : (sineIndex p).getLsbD i = p.getLsbD (i + 7) := by
  have hkept : 8 + i < 16 := by omega
  have hsource : 8 + i - 1 = i + 7 := by omega
  simp only [sineIndex, BitVec.getLsbD_setWidth, BitVec.getLsbD_ushiftRight, BitVec.getLsbD_shiftLeft, hi, hkept,
    hsource]
  simp

/-- R74: complementing bits [14:7] of the phase complements the index. -/
theorem sineIndex_xor (p : Word) : sineIndex (p ^^^ 0x7F80) = ~~~sineIndex p := by
  apply BitVec.eq_of_getLsbD_eq
  intro i hi
  have hmask : ∀ j < 8, (0x7F80 : Word).getLsbD (j + 7) = true := by decide
  rw [BitVec.getLsbD_not, sineIndex_getLsbD _ hi, sineIndex_getLsbD _ hi, BitVec.getLsbD_xor, hmask i hi]
  simp [hi]

/-- R71: the second half of the table mirrors the first. -/
theorem pSine_not (x : BitVec 8) : pSine (~~~x) = pSine x := by
  rw [pSine, pSine, BitVec.not_not, Nat.mul_comm]

theorem pSine_mono {x y : BitVec 8} (hxy : x ≤ y) (hy : y.toNat ≤ 127) : pSine x ≤ pSine y := by
  rw [BitVec.le_def, pSine_toNat, pSine_toNat]
  exact Nat.div_le_div_right (parabola_mono hxy hy)

/-- Settles O17: bit 15 is the polarity and no part of the index; complementing the index swaps the two factors of
the parabola, which rises up to its middle. -/
theorem sineIsSymmetric : Obligations.SineIsSymmetric := by
  refine ⟨fun p => ⟨?_, ?_, ?_⟩, fun p => ?_, fun _ _ => pSine_mono, by decide⟩
  · rw [pSineMag, pSineMag, sineIndex_clearBit15]
  · rw [pSinePol_eq, decide_eq_true_iff]
  · rw [pSinePol_eq, clearBit15_toNat, decide_eq_false_iff_not]
    omega
  · rw [pSineMag, pSineMag, sineIndex_xor, pSine_not]

end Sys2Proof.Proofs
end

section
/-! PROOFS. The family 42_ring_modulator.md: the magnitude (R80), the polarity (R81), both as one signed product (R82)
and the square at unison (R83). -/

namespace Sys2Proof.Proofs

open Sys2Proof Sys2Proof.Machine Sys2Proof.Laws

/-! ### The polarity -/

/-- R81: negative exactly for unlike signs. -/
theorem ringPol_eq_true_iff (pM pS : Polarity) : ringPol pM pS = true ↔ pM ≠ pS := by
  rw [ringPol, bne_iff_ne]

theorem ringPol_self (p : Polarity) : ringPol p p = false :=
  Bool.xor_self p

/-! ### The magnitude -/

/-- R80: small signals vanish. -/
theorem ringMag_eq_zero {mM mS : Magnitude} (hM : mM.toNat ≤ 254) (hS : mS.toNat ≤ 254)
    (h : mM.toNat * mS.toNat < 512) : ringMag mM mS = 0 :=
  BitVec.eq_of_toNat_eq ((ringMag_toNat mM mS hM hS).trans (Nat.div_eq_of_lt h))

/-- Settles O19: the two floors are one division by 512. -/
theorem ringModulatorMultipliesAndXors : Obligations.RingModulatorMultipliesAndXors := by
  intro mM mS pM pS hM hS
  refine ⟨?_, ringMag_le mM mS hM hS, ringMag_eq_zero hM hS, ringPol_eq_true_iff pM pS⟩
  rw [ringMag_toNat mM mS hM hS, Nat.div_div_eq_div_mul]

/-! ### The signed product -/

/-- The floor of a product of magnitudes is their signed quotient: there is nothing below zero to round. -/
theorem ringMag_cast {mM mS : Magnitude} (hM : mM.toNat ≤ 254) (hS : mS.toNat ≤ 254) :
    ((ringMag mM mS).toNat : Int) = Int.tdiv ((mM.toNat : Int) * mS.toNat) 512 := by
  rw [ringMag_toNat mM mS hM hS, ← Int.natCast_mul]
  exact Int.ofNat_tdiv _ 512

/-- Settles O20: a sign of either factor passes through the product and through division toward zero; two cancel. -/
theorem ringModulatorTruncatesTheSignedProduct : Obligations.RingModulatorTruncatesTheSignedProduct := by
  intro mM mS pM pS hM hS
  have hmag := ringMag_cast hM hS
  cases pM <;> cases pS
  case false.false | true.true => simp [ringPol, hmag]
  case false.true | true.false => simp [ringPol, hmag, Int.neg_tdiv]

/-! ### Unison -/

/-- An offset that has arrived at its target stays (R62). -/
theorem slew_self (c : Word) : slew c c = c :=
  BitVec.eq_of_toNat_eq (by simp [slew_toNat])

/-- At unison the slave is the master (R64). -/
theorem wires_sp_unison {x : Regs} (hc : x.slaveOffsetCurrent = 0) (ht : x.slaveOffsetTarget = 0) :
    (tickWires x).sp = (tickWires x).m := by
  rw [wires_sp, wires_c, hc, ht, slew_self, slavePhase_zero_right]

/-- A magnitude of the ring modulator, at most 126, does not reach 256 under a factor of at most 130, so it does not
fold over (log entry 7). -/
theorem foldScale_lt_256 {r : Magnitude} {f : BitVec 9} (hr : r.toNat ≤ 126) (hf : f.toNat ≤ 130) :
    foldScale r f < 256 := by
  have hprod : r.toNat * f.toNat ≤ 126 * 130 := Nat.mul_le_mul hr hf
  rw [foldScale_eq]
  omega

/-- Below 256 the fold keeps the polarity (R92). -/
theorem foldPol_of_lt {v0 : Nat} (h : v0 < 256) (p : Polarity) : foldPol v0 p = p := by
  rw [foldPol_eq, if_neg (by omega)]

/-- A positive signal that does not fold over stays at or above the midpoint. -/
theorem midpoint_le_out {x : Regs} (hp : (tickWires x).p = false) (hw : x.wrapFactor.toNat ≤ 130) :
    128 ≤ (tickWires x).out.toNat := by
  have hf : (tickWires x).f.toNat ≤ 130 := by
    rw [wires_f, foldSelect_toNat, hp]
    exact hw
  have hp' : (tickWires x).p' = false := by
    rw [wires_p', wires_v0, foldPol_of_lt (foldScale_lt_256 (wires_r_le x) hf), hp]
  rw [wires_out, outConv_toNat _ _ (wires_v_le x), hp']
  exact Nat.le_add_right 128 _

/-- Settles O21: the slave's wires are the master's, so the polarities cancel and the product is a square. -/
theorem unisonSquaresTheMaster : Obligations.UnisonSquaresTheMaster := by
  intro x hc ht
  have hsp := wires_sp_unison hc ht
  have hmS : (tickWires x).mS = (tickWires x).mM := by rw [wires_mS, hsp, wires_mM]
  have hpS : (tickWires x).pS = (tickWires x).pM := by rw [wires_pS, hsp, wires_pM]
  have hp : (tickWires x).p = false := by rw [wires_p, hpS, ringPol_self]
  refine ⟨hsp, hmS, hpS, hp, ?_, midpoint_le_out hp⟩
  rw [wires_r, hmS, ringMag_toNat _ _ (wires_mM_le x) (wires_mM_le x)]

end Sys2Proof.Proofs
end

section
/-! PROOFS. The family 43_wave_folder.md: factor and scale (R90, R91), wrap and reflect (R92, R93), and the triangle
they make together (R95, R96). -/

namespace Sys2Proof.Proofs

open Sys2Proof Sys2Proof.Machine Sys2Proof.Laws

/-! ### Wrap and reflect -/

theorem foldReflect_of_le {v1 : BitVec 8} (h : v1.toNat ≤ 127) : foldReflect v1 = v1 := by
  apply BitVec.eq_of_toNat_eq
  rw [foldReflect_toNat, if_pos h]

/-- Above 127, 127 less the low 7 bits is 255 less the whole value. -/
theorem foldReflect_toNat_of_gt {v1 : BitVec 8} (h : 127 < v1.toNat) :
    (foldReflect v1).toNat = 127 - v1.toNat % 128 := by
  have hlt := v1.isLt
  rw [foldReflect_toNat, if_neg (by omega)]
  omega

/-- Settles O22: below 256 the low 8 bits are the whole value and bit 8 is clear. -/
theorem foldWrapsAndReflects : Obligations.FoldWrapsAndReflects := by
  refine ⟨fun v0 p => ?_, fun v1 => ⟨foldReflect_of_le, foldReflect_toNat_of_gt⟩⟩
  rw [foldWrap_toNat, foldPol_eq]
  by_cases h : 256 ≤ v0
  · simp [h]
  · have hquot : v0 / 256 = 0 := by omega
    have hmod : v0 % 256 = v0 := by omega
    simp [h, hquot, hmod]

/-! ### The repeating triangle -/

/-- The folded magnitude has period 256: it is the reflected remainder. -/
theorem foldReflect_foldWrap_toNat (v0 : Nat) :
    (foldReflect (foldWrap v0)).toNat = if v0 % 256 ≤ 127 then v0 % 256 else 255 - v0 % 256 := by
  rw [foldReflect_toNat, foldWrap_toNat]

/-- The first half-period keeps the polarity. -/
theorem foldPol_of_mod_lt {v0 : Nat} (h : v0 % 512 < 256) (p : Polarity) : foldPol v0 p = p := by
  rw [foldPol_eq, if_neg (by omega)]

/-- The second half-period has the other polarity. -/
theorem foldPol_of_le_mod {v0 : Nat} (h : 256 ≤ v0 % 512) (p : Polarity) : foldPol v0 p = !p := by
  rw [foldPol_eq, if_pos (by omega)]

/-- On a rising flank the magnitude is the distance from the start of the half-period. -/
theorem foldMagnitude_rising {v0 : Nat} (h : v0 % 256 ≤ 127) : (foldReflect (foldWrap v0)).toNat = v0 % 256 := by
  rw [foldReflect_foldWrap_toNat, if_pos h]

/-- On a falling flank the magnitude is the distance to the end of the half-period. -/
theorem foldMagnitude_falling {v0 : Nat} (h : 128 ≤ v0 % 256) :
    (foldReflect (foldWrap v0)).toNat = 255 - v0 % 256 := by
  rw [foldReflect_foldWrap_toNat, if_neg (by omega)]

/-- The flanks have slope 1 and meet at 127 and at 0, where the value is repeated. -/
theorem foldMagnitude_neighbours (v0 : Nat) :
    (foldReflect (foldWrap v0)).toNat ≤ (foldReflect (foldWrap (v0 + 1))).toNat + 1 ∧
    (foldReflect (foldWrap (v0 + 1))).toNat ≤ (foldReflect (foldWrap v0)).toNat + 1 := by
  rw [foldReflect_foldWrap_toNat, foldReflect_foldWrap_toNat]
  split <;> split <;> omega

/-- Settles O23: each segment of R95 is one flank of the magnitude in one half-period of the polarity. -/
theorem foldIsARepeatingTriangle : Obligations.FoldIsARepeatingTriangle := by
  intro v0 p
  refine ⟨fun h => ⟨foldPol_of_mod_lt (by omega) p, ?_⟩, fun hlow hhigh => ⟨foldPol_of_mod_lt (by omega) p, ?_⟩,
    fun hlow hhigh => ⟨foldPol_of_le_mod hlow p, ?_⟩, fun h => ⟨foldPol_of_le_mod (by omega) p, ?_⟩,
    foldMagnitude_neighbours v0⟩
  · rw [foldMagnitude_rising (by omega)]; omega
  · rw [foldMagnitude_falling (by omega)]; omega
  · rw [foldMagnitude_rising (by omega)]; omega
  · rw [foldMagnitude_falling (by omega)]; omega

/-! ### Factor and scale -/

/-- R91 as written: two places to the left and eight to the right. -/
theorem foldScale_eq_mul_four (r : Magnitude) (f : BitVec 9) : foldScale r f = r.toNat * f.toNat * 4 / 256 := by
  rw [foldScale, Nat.shiftLeft_eq, Nat.shiftRight_eq_div_pow]

theorem foldScale_le {r : Magnitude} {f : BitVec 9} {a b : Nat} (hr : r.toNat ≤ a) (hf : f.toNat ≤ b) :
    foldScale r f ≤ a * b / 64 := by
  rw [foldScale_eq]
  exact Nat.div_le_div_right (Nat.mul_le_mul hr hf)

/-- The bounds of R91 are the largest ring magnitude under the widest 9-bit and the widest 8-bit factor. -/
theorem foldScale_foldSelect_le {r : Magnitude} (hr : r.toNat ≤ 126) (p : Polarity) (w : BitVec 9) (n : BitVec 8) :
    foldScale r (foldSelect p w n) ≤ if p then 502 else 1006 := by
  have hfactor := foldSelect_toNat p w n
  cases p with
  | false =>
    have hw : (foldSelect false w n).toNat ≤ 511 := hfactor ▸ Nat.le_of_lt_succ w.isLt
    exact foldScale_le hr hw
  | true =>
    have hn : (foldSelect true w n).toNat ≤ 255 := hfactor ▸ Nat.le_of_lt_succ n.isLt
    exact foldScale_le hr hn

/-- R96: the wrap inverts the polarity or keeps it, whichever it is. -/
theorem foldPol_eq_xor (v0 : Nat) (p : Polarity) : foldPol v0 p = (foldPol v0 false ^^ p) := by
  rw [foldPol_eq, foldPol_eq]
  split
  · rw [Bool.not_false, Bool.true_xor]
  · rw [Bool.false_xor]

/-- Settles O24: the factor's value, the two forms of the scale, the bounds and the polarity, each by its lemma. -/
theorem foldDiffersByFactorOnly : Obligations.FoldDiffersByFactorOnly :=
  fun r p w n => ⟨foldSelect_toNat p w n, fun f => ⟨foldScale_eq_mul_four r f, foldScale_eq r f⟩,
    fun hr => foldScale_foldSelect_le hr p w n, fun v0 => foldPol_eq_xor v0 p⟩

end Sys2Proof.Proofs
end

section
/-! PROOFS. The family 44_pwm_output.md: the output conversion (R100, R101) and the emission (R102 to R105). -/

namespace Sys2Proof.Proofs

open Sys2Proof Sys2Proof.Machine Sys2Proof.Laws

/-! ### The output conversion -/

/-- Settles O25: the fold leaves at most 127, where the conversion neither wraps nor clamps. -/
theorem outputCodesLieAboutTheMidpoint : Obligations.OutputCodesLieAboutTheMidpoint := fun s =>
  ⟨_, exec_tick s, wires_v_le s.regs, outConv_toNat _ _ (wires_v_le s.regs)⟩

/-- The code as a signed sample about the midpoint 128 (R101): a negative zero is -1. -/
theorem outConv_offsetBinary {v : Magnitude} (hv : v.toNat ≤ 127) (p : Polarity) :
    ((outConv v p).toNat : Int) = 128 + (if p then -(v.toNat : Int) - 1 else v.toNat) := by
  rw [outConv_toNat v p hv]
  cases p with
  | false => exact Int.natCast_add 128 v.toNat
  | true =>
    simp only [if_true]
    omega

/-- Bit 7 of the code is the inverted polarity (R101). -/
theorem outConv_getLsbD_seven {v : Magnitude} (hv : v.toNat ≤ 127) (p : Polarity) :
    (outConv v p).getLsbD 7 = !p := by
  have hmsb : (outConv v p).getLsbD 7 = decide (128 ≤ (outConv v p).toNat) :=
    (BitVec.msb_eq_getLsbD_last _).symm.trans (BitVec.msb_eq_decide _)
  rw [hmsb, outConv_toNat v p hv]
  cases p with
  | false => exact decide_eq_true (Nat.le_add_right 128 v.toNat)
  | true =>
    simp only [if_true, Bool.not_true, decide_eq_false_iff_not]
    omega

/-- The magnitude a code stands for: its distance down from 127 or up from 128 (R100). -/
def codeMagnitude (o : Sample) : Magnitude :=
  if o.toNat < 128 then 127 - o else o - 128

theorem codeMagnitude_toNat (o : Sample) :
    (codeMagnitude o).toNat = if o.toNat < 128 then 127 - o.toNat else o.toNat - 128 := by
  have hlt := o.isLt
  unfold codeMagnitude
  split <;> simp [BitVec.toNat_sub] <;> omega

theorem codeMagnitude_le (o : Sample) : (codeMagnitude o).toNat ≤ 127 := by
  have hlt := o.isLt
  rw [codeMagnitude_toNat]
  split <;> omega

/-- A code read back: its magnitude, and negative exactly below the midpoint. -/
theorem outConv_eq_iff {v : Magnitude} (hv : v.toNat ≤ 127) (p : Polarity) (o : Sample) :
    outConv v p = o ↔ v = codeMagnitude o ∧ p = decide (o.toNat < 128) := by
  rw [← BitVec.toNat_inj, ← BitVec.toNat_inj, outConv_toNat v p hv, codeMagnitude_toNat]
  by_cases ho : o.toNat < 128
  · rw [if_pos ho, decide_eq_true ho]
    cases p <;> simp <;> omega
  · rw [if_neg ho, decide_eq_false ho]
    cases p <;> simp <;> omega

/-- Settles O26: magnitude and polarity are read back from the code, so no other pair gives it. -/
theorem outputConversionIsOffsetBinary : Obligations.OutputConversionIsOffsetBinary :=
  ⟨fun _ p hv => ⟨outConv_getLsbD_seven hv p, outConv_offsetBinary hv p⟩,
    fun o => ⟨codeMagnitude o, decide (o.toNat < 128), codeMagnitude_le o,
      (outConv_eq_iff (codeMagnitude_le o) _ o).mpr ⟨rfl, rfl⟩, fun _ p' hv' => (outConv_eq_iff hv' p' o).mp⟩⟩

/-! ### Emission -/

/-- Settles O43: a TICK emits, RESET clears, and a control write reaches neither trace nor duty latch. -/
theorem onlyTickEmits : Obligations.OnlyTickEmits := by
  intro s w rest i he hd
  cases hi : i.isControl with
  | true =>
    obtain ⟨cw, -, hstep⟩ := step_control he hd hi
    refine ⟨_, hstep, ?_, fun _ => ⟨controlWrite_trace cw _, controlWrite_pwmDuty cw _⟩, ?_⟩ <;>
      rintro rfl <;> cases hi
  | false =>
    cases i with
    | tick => exact ⟨_, step_tick he hd, fun _ => ⟨rfl, rfl⟩, nofun, nofun⟩
    | reset => exact ⟨_, step_reset he hd, nofun, nofun, fun _ => ⟨rfl, rfl⟩⟩
    | wrpi _ | wrwf _ _ | ldpitch _ _ | lddetune _ | ldfold _ => cases hi

/-! ### The trace along a sequence of events -/

/-- The positions of the TICKs among the first `n` events. -/
def tickPositions (is : List Instr) (n : Nat) : List Nat :=
  (List.range n).filter (fun k => is[k]? == some .tick)

theorem tickPositions_succ {is : List Instr} {n : Nat} (hn : n < is.length) :
    tickPositions is (n + 1) = if is[n] = .tick then tickPositions is n ++ [n] else tickPositions is n := by
  by_cases htick : is[n] = .tick <;> simp [tickPositions, List.range_succ, hn, htick]

/-- A list that each TICK, and no other event, extends by one element holds one element for each TICK, in order. -/
theorem eq_append_map_tickPositions {α : Type} {is : List Instr} {g : Nat → List α} {x : Nat → α}
    (hg : ∀ k (hk : k < is.length), g (k + 1) = if is[k] = .tick then g k ++ [x k] else g k)
    {n : Nat} (hn : n ≤ is.length) : g n = g 0 ++ (tickPositions is n).map x := by
  induction n with
  | zero => exact (List.append_nil _).symm
  | succ n ih =>
    have hlt : n < is.length := hn
    rw [hg n hlt, tickPositions_succ hlt, ih hlt.le]
    by_cases htick : is[n] = .tick <;> simp [htick]

theorem length_tickPositions {is : List Instr} {n : Nat} (hn : n ≤ is.length) :
    (tickPositions is n).length = (is.take n).count .tick := by
  induction n with
  | zero => rfl
  | succ n ih =>
    have hlt : n < is.length := hn
    rw [tickPositions_succ hlt, List.take_succ_eq_append_getElem hlt, List.count_append, ← ih hlt.le]
    by_cases htick : is[n] = .tick <;> simp [htick]

/-- What an event does to the trace: a TICK appends the Output it finds, any other event nothing (R103). With the
Output still to be emitted, the trace grows at each TICK by what that TICK computed (R105). -/
theorem trace_of_step {s t : State} {i : Instr} {rest : List EventWord} (hw : i.wellFormed = true)
    (hi : i ≠ .reset) (h : s.events = encode i :: rest) (hstep : step s = .next t) :
    t.trace = (if i = .tick then s.trace ++ [s.regs.output] else s.trace) ∧
      t.trace ++ [t.regs.output] =
        if i = .tick then s.trace ++ [s.regs.output] ++ [t.regs.output] else s.trace ++ [s.regs.output] := by
  rcases step_encoded_cases hw hi h hstep with ⟨rfl, rfl⟩ | ⟨hne, cw, -, rfl⟩
  · exact ⟨rfl, rfl⟩
  · rw [if_neg hne, if_neg hne, controlWrite_trace, controlWrite_output]
    exact ⟨rfl, rfl⟩

/-- Along a sequence of events the trace grows by the Outputs the TICKs find; with the Output still to be emitted, by
those they compute. -/
theorem trace_of_trajectory {is : List Instr} {f : Nat → State}
    (hgood : ∀ i ∈ is, i.wellFormed = true ∧ i ≠ .reset)
    (hf : ∀ k (hk : k < is.length), step (f k) = .next (f (k + 1)) ∧ ∃ ws, (f k).events = encode is[k] :: ws) :
    (f is.length).trace = (f 0).trace ++ (tickPositions is is.length).map (fun k => (f k).regs.output) ∧
    (f is.length).trace ++ [(f is.length).regs.output] =
      (f 0).trace ++ [(f 0).regs.output] ++
        (tickPositions is is.length).map (fun k => (f (k + 1)).regs.output) := by
  have hemit := fun k (hk : k < is.length) =>
    let ⟨hstep, _, hws⟩ := hf k hk
    let ⟨hw, hi⟩ := hgood is[k] (List.getElem_mem hk)
    trace_of_step hw hi hws hstep
  exact ⟨eq_append_map_tickPositions (g := fun k => (f k).trace) (fun k hk => (hemit k hk).1) le_rfl,
    eq_append_map_tickPositions (g := fun k => (f k).trace ++ [(f k).regs.output])
      (fun k hk => (hemit k hk).2) le_rfl⟩

/-- Settles O45: RESET leaves an empty trace and the reset Output, and every event after it extends the trace and the
computed samples in step. -/
theorem traceIsTheOutputsDelayedByOne : Obligations.TraceIsTheOutputsDelayedByOne := by
  intro s is rest hgood he
  obtain ⟨f, hf0, hf⟩ := exists_trajectory (fun i hi => (hgood i hi).1)
    (s := { s with regs := s.params.resetValues, trace := [], halfWrites := [], events := words is ++ rest }) rfl
  obtain ⟨htrace, hsamples⟩ := trace_of_trajectory hgood hf
  rw [hf0] at htrace hsamples
  refine ⟨f, hf0 ▸ step_encode_reset he, fun k hk => (hf k hk).1, ?_, htrace, hsamples⟩
  rw [htrace, List.nil_append, List.length_map, length_tickPositions le_rfl, List.take_length]

end Sys2Proof.Proofs
end

section
/-! PROOFS. The family 45_tick.md: the nine steps over numbers (R110, R113), the ranges of the wires (R114), the rest
state (R115) and the source's example (R116). -/

namespace Sys2Proof.Proofs

open Sys2Proof Sys2Proof.Machine Sys2Proof.Laws

/-! ### Polarities as the numbers 0 and 1 -/

theorem pSinePol_bit (p : Word) : (pSinePol p).toNat = p.toNat / 32768 := by
  have hlt := p.isLt
  rw [pSinePol_eq]
  by_cases h : 32768 ≤ p.toNat
  · rw [decide_eq_true h, Bool.toNat_true]
    omega
  · rw [decide_eq_false h, Bool.toNat_false]
    omega

/-- The exclusive-or of two bits is their sum without the carry. -/
theorem ringPol_bit (pM pS : Polarity) : (ringPol pM pS).toNat = (pM.toNat + pS.toNat) % 2 := by
  cases pM <;> cases pS <;> rfl

theorem foldSelect_toNat_of_bit (p : Polarity) (w : BitVec 9) (n : BitVec 8) :
    (foldSelect p w n).toNat = if p.toNat = 0 then w.toNat else n.toNat := by
  rw [foldSelect_toNat]
  cases p <;> rfl

/-- The inverted bit is 1 less the bit (R92). -/
theorem foldPol_bit (v0 : Nat) (p : Polarity) :
    (foldPol v0 p).toNat = if 256 ≤ v0 ∧ v0 / 256 % 2 = 1 then 1 - p.toNat else p.toNat := by
  have hbig : 256 ≤ v0 ∧ v0 / 256 % 2 = 1 ↔ v0 / 256 % 2 = 1 := by omega
  rw [foldPol_eq, if_congr hbig rfl rfl, apply_ite Bool.toNat]
  cases p <;> rfl

theorem outConv_toNat_of_bit (v : Magnitude) (p : Polarity) (h : v.toNat ≤ 127) :
    (outConv v p).toNat = if p.toNat = 1 then 127 - v.toNat else 128 + v.toNat := by
  rw [outConv_toNat v p h]
  cases p <;> rfl

/-! ### The fold's magnitudes as R92 and R93 write them -/

theorem foldWrap_toNat_of_cases (v0 : Nat) : (foldWrap v0).toNat = if 256 ≤ v0 then v0 % 256 else v0 := by
  rw [foldWrap_toNat]
  split <;> omega

theorem foldReflect_toNat_of_cases (v1 : BitVec 8) :
    (foldReflect v1).toNat = if 127 < v1.toNat then 127 - v1.toNat % 128 else v1.toNat := by
  split
  case isTrue h => exact foldReflect_toNat_of_gt h
  case isFalse h => rw [foldReflect_of_le (Nat.le_of_not_lt h)]

/-! ### The nine steps -/

/-- Settles O9: each wire, in the order of R110, is the number its step computes from the wires before it. -/
theorem tickComputesTheNineSteps : Obligations.TickComputesTheNineSteps := by
  intro s M C0 T C xM mM pM SP xS mS pS r p f v0 p' v1 v
  let w := tickWires s.regs
  have hM : w.m.toNat = M := phaseAdvance_toNat _ _
  have hC : w.c.toNat = C := slew_toNat _ _
  have hmM : w.mM.toNat = mM := by rw [wires_mM, pSineMag_toNat, hM]
  have hpM : w.pM.toNat = pM := by rw [wires_pM, pSinePol_bit, hM]
  have hSP : w.sp.toNat = SP := by rw [wires_sp, slavePhase_toNat, hM, hC]
  have hmS : w.mS.toNat = mS := by rw [wires_mS, pSineMag_toNat, hSP]
  have hpS : w.pS.toNat = pS := by rw [wires_pS, pSinePol_bit, hSP]
  have hr : w.r.toNat = r := by
    rw [wires_r, ringMag_toNat _ _ (wires_mM_le _) (wires_mS_le _), hmM, hmS, ← Nat.div_div_eq_div_mul _ 256 2]
  have hp : w.p.toNat = p := by rw [wires_p, ringPol_bit, hpM, hpS]
  have hf : w.f.toNat = f := by rw [wires_f, foldSelect_toNat_of_bit, hp]
  have hv0 : w.v0 = v0 := by rw [wires_v0, foldScale_eq_mul_four, hr, hf]
  have hp' : w.p'.toNat = p' := by rw [wires_p', foldPol_bit, hv0, hp]
  have hv1 : w.v1.toNat = v1 := by rw [wires_v1, foldWrap_toNat_of_cases, hv0]
  have hv : w.v.toNat = v := by rw [wires_v, foldReflect_toNat_of_cases, hv1]
  have hout : w.out.toNat = if p' = 1 then 127 - v else 128 + v := by
    rw [wires_out, outConv_toNat_of_bit _ _ (wires_v_le _), hp', hv]
  exact ⟨_, exec_tick s, rfl, rfl, hM, hC, hout, rfl, rfl, rfl, rfl, rfl, rfl, rfl, rfl⟩

/-! ### The ranges of the wires -/

/-- Between an offset and a target in range the slew stays in range (R62). -/
theorem wires_c_le {x : Regs} (hx : x.Legal) : (tickWires x).c.toNat ≤ 1023 := by
  obtain ⟨-, htarget, hcurrent⟩ := hx
  exact slew_le hcurrent htarget

/-- Whichever factor is selected, it is at least 64, and 511 bounds both (R22). -/
theorem wires_f_range {x : Regs} (hx : x.Legal) : 64 ≤ (tickWires x).f.toNat ∧ (tickWires x).f.toNat ≤ 511 := by
  obtain ⟨⟨hw, hw', hn, hn', -⟩, -⟩ := hx
  rw [wires_f, foldSelect_toNat]
  split <;> omega

theorem sineIndex_le (p : Word) : (sineIndex p).toNat ≤ 255 :=
  Nat.le_of_lt_succ (sineIndex p).isLt

/-- Settles O10: the width or a unit's bound gives each wire's range, and the factors' ranges their product's. -/
theorem wiresStayInTheirRanges : Obligations.WiresStayInTheirRanges := by
  intro x hx w
  have hm : w.m.toNat ≤ 65535 := Nat.le_of_lt_succ w.m.isLt
  have hc : w.c.toNat ≤ 1023 := wires_c_le hx
  have hmM : w.mM.toNat ≤ 254 := wires_mM_le x
  have hmS : w.mS.toNat ≤ 254 := wires_mS_le x
  have hr : w.r.toNat ≤ 126 := wires_r_le x
  obtain ⟨hf, hf'⟩ : 64 ≤ w.f.toNat ∧ w.f.toNat ≤ 511 := wires_f_range hx
  have hrf : w.r.toNat * w.f.toNat ≤ 64386 := Nat.mul_le_mul hr hf'
  have hshift : (w.r.toNat * w.f.toNat) <<< 2 ≤ 257544 := by
    rw [Nat.shiftLeft_eq]
    exact Nat.mul_le_mul_right (2 ^ 2) hrf
  exact ⟨hm, Nat.le_of_lt_succ w.sp.isLt, hc, Nat.mul_le_mul hm hc, sineIndex_le _, sineIndex_le _,
    parabola_le _ (sineIndex_le _), parabola_le _ (sineIndex_le _), hmM, hmS, Nat.mul_le_mul hmM hmS, hr, hf, hf', hrf,
    hshift, foldScale_le hr hf', Nat.le_of_lt_succ w.v1.isLt, wires_v_le x, Nat.le_of_lt_succ w.out.isLt⟩

/-! ### The rest state -/

/-- R115's rest state, with nothing in flight: the increment is 0 and the offset is at its target. -/
structure AtRest (s : State) : Prop where
  halfWrites : s.halfWrites = []
  increment : s.regs.pitchIncrement = 0
  offset : s.regs.slaveOffsetCurrent = s.regs.slaveOffsetTarget

theorem phaseAdvance_zero (m : Word) : phaseAdvance m 0 = m :=
  BitVec.eq_of_toNat_eq (by simp [phaseAdvance_toNat, Nat.mod_eq_of_lt m.isLt])

/-- At rest a TICK stores the phase and the offset it found. -/
theorem tick_next_regs_of_rest {s : State} (h : AtRest s) : (StepKind.tick.next s).regs =
    { s.regs with output := (tickWires s.regs).out, pwmDuty := s.regs.output } := by
  have hm : (tickWires s.regs).m = s.regs.masterPhase := by rw [wires_m, h.increment, phaseAdvance_zero]
  have hc : (tickWires s.regs).c = s.regs.slaveOffsetCurrent := by rw [wires_c, ← h.offset, slew_self]
  rw [StepKind.next, h.halfWrites, landAll_nil, storeWires, hm, hc]

/-- A TICK reads neither the sample nor the duty latch, so at rest the next TICK's wires are the same. -/
theorem rest_tick_next {s : State} (h : AtRest s) :
    AtRest (StepKind.tick.next s) ∧ tickWires (StepKind.tick.next s).regs = tickWires s.regs := by
  have hregs := tick_next_regs_of_rest h
  refine ⟨⟨rfl, ?_, ?_⟩, ?_⟩ <;> rw [hregs]
  · exact h.increment
  · exact h.offset
  · rfl

/-- At rest, with the sample already the one a TICK recomputes, TICKs change the duty latch and the trace only. -/
theorem reachesIn_rest {n : Nat} {s : State} {rest : List EventWord} (h : AtRest s)
    (ho : s.regs.output = (tickWires s.regs).out) (he : s.events = words (runEvents n) ++ rest) :
    ∃ t, ReachesIn n s t ∧
      t.regs = { s.regs with pwmDuty := if n = 0 then s.regs.pwmDuty else s.regs.output } ∧
      t.trace = s.trace ++ List.replicate n s.regs.output := by
  induction n generalizing s with
  | zero => exact ⟨s, run_zero s, rfl, (List.append_nil _).symm⟩
  | succ n ih =>
    have hregs : (StepKind.tick.next s).regs = { s.regs with pwmDuty := s.regs.output } := by
      rw [tick_next_regs_of_rest h, ← ho]
    obtain ⟨hrest, hwires⟩ := rest_tick_next h
    obtain ⟨t, hrun, ht, htrace⟩ := ih hrest (by rw [hwires, hregs, ← ho]) (congrArg List.tail he)
    refine ⟨t, (run_succ (step_encoded_tick he) n).trans hrun, ?_, ?_⟩
    · rw [ht, hregs, ite_self, if_neg (Nat.succ_ne_zero n)]
    · rw [htrace, hregs, List.replicate_succ, List.append_cons]
      rfl

/-- At the default reset values a TICK recomputes the sample 128 (R27). -/
theorem defaultResetValues_output : Config.defaultResetValues.output = (tickWires Config.defaultResetValues).out := by
  decide

/-- Settles O13: the first TICK computes the sample, the others repeat it; the default reset values hold it already. -/
theorem restStateRepeatsOneSample : Obligations.RestStateRepeatsOneSample := by
  refine ⟨fun s n rest hh hi hc he => ?_, fun n => ?_⟩
  · have hrest : AtRest s := ⟨hh, hi, hc⟩
    have hregs := tick_next_regs_of_rest hrest
    obtain ⟨hrest', hwires⟩ := rest_tick_next hrest
    obtain ⟨t, hrun, ht, htrace⟩ := reachesIn_rest (n := n) hrest' (by rw [hwires, hregs]) (congrArg List.tail he)
    rw [hregs] at ht htrace
    refine ⟨_, t, (run_succ (step_encoded_tick he) n).trans hrun, rfl, by rw [ht], by rw [ht], by rw [ht],
      fun hn => by rw [ht, if_neg hn.ne'], ?_⟩
    rw [htrace, List.append_cons]
    rfl
  · obtain ⟨t, hrun, ht, htrace⟩ := reachesIn_rest (n := n) (rest := [])
      (s := State.reset.withEvents (words (runEvents n))) ⟨rfl, rfl, rfl⟩ defaultResetValues_output
      (List.append_nil _).symm
    refine ⟨t, (run_succ (step_encode_reset rfl) n).trans hrun, ?_, htrace⟩
    rw [ht]
    exact congrArg (fun d => { Config.defaultResetValues with pwmDuty := d }) (ite_self _)

/-! ### The source's example -/

/-- Settles O14: what TICK stores over the registers of the example, evaluated. -/
theorem sourceExampleGives129 : Obligations.SourceExampleGives129 := by
  refine fun s => ⟨fun h => ⟨_, exec_tick s, ?_⟩, fun h => ⟨_, exec_tick s, ?_⟩⟩
  · rw [withRegs_regs, emit_regs, h]
    decide
  · rw [withRegs_regs, emit_regs, h]
    decide

end Sys2Proof.Proofs
end

section
/-! PROOFS. The family 46_control_port.md: what each of the five control events writes, and what it leaves unchanged
(R120 to R124). -/

namespace Sys2Proof.Proofs

open Sys2Proof Sys2Proof.Machine Sys2Proof.Laws

/-! ### The effect of one control write -/

/-- Under `atomic` a control write leaves nothing in flight (R36). -/
theorem controlWrite_atomic_halfWrites (cw : ControlWrite) {s : State} (h : s.params.tornWrites = .atomic) :
    (controlWrite cw s).halfWrites = [] := by
  rw [controlWrite_atomic cw s h, withRegs_halfWrites, settle_halfWrites]

/-- A control write, whole or torn, has the effect of the whole write and no other: the frame of all five events. -/
theorem controlWrite_effect (cw : ControlWrite) (s : State) : ControlEffect cw.whole s (controlWrite cw s) :=
  ⟨settle_controlWrite_regs cw s, controlWrite_masterPhase cw s, controlWrite_slaveOffsetCurrent cw s,
    controlWrite_output cw s, controlWrite_pwmDuty cw s, controlWrite_trace cw s, controlWrite_events cw s,
    controlWrite_params cw s, controlWrite_atomic_halfWrites cw⟩

/-! ### The pitch increment -/

/-- Settles O27: WRPI is one control write, of its operand. -/
theorem wrpiWritesThePitchIncrement : Obligations.WrpiWritesThePitchIncrement := fun imm16 s =>
  ⟨_, rfl, controlWrite_effect (.pitchIncrement imm16) s⟩

/-- LDPITCH is one control write, of the table's entry at the effective reading (R122). -/
theorem exec_ldpitch (cv10 knob10 : Reading) (s : State) : exec (.ldpitch cv10 knob10) s =
    .next (controlWrite (.pitchIncrement (Config.octaveLut.entry (effectivePitch cv10 knob10))) s) := rfl

/-- Once a pitch write has landed the register holds its value (R39). -/
theorem settle_pitchWrite (v : Word) (s : State) :
    (settle (controlWrite (.pitchIncrement v) s)).regs.pitchIncrement = v := by
  rw [settle_controlWrite_regs]
  rfl

/-- What the knob adds is cut off at the deadzone, as a natural difference is cut off at 0 (R122). -/
theorem effectivePitch_toNat_deadzone (cv10 knob10 : Reading) : (effectivePitch cv10 knob10).toNat =
    min (cv10.toNat + (if 600 < knob10.toNat then knob10.toNat - 600 else 0)) 1023 := by
  rw [effectivePitch_toNat]
  split <;> omega

/-- Settles O29: one control write of the table's entry, and the table is monotonic (R32). -/
theorem ldpitchLooksUpTheEffectiveReading : Obligations.LdpitchLooksUpTheEffectiveReading := by
  refine ⟨fun cv10 knob10 s => ?_, fun cv10 knob10 cv10' knob10' s hle => ?_⟩
  · exact ⟨_, exec_ldpitch cv10 knob10 s, effectivePitch cv10 knob10, effectivePitch_toNat_deadzone cv10 knob10,
      controlWrite_effect _ s⟩
  · refine ⟨_, _, exec_ldpitch cv10 knob10 s, exec_ldpitch cv10' knob10' s, ?_⟩
    rw [settle_pitchWrite, settle_pitchWrite]
    exact Config.octaveLut.mono _ _ hle

/-! ### The offset target -/

/-- Settles O30: LDDETUNE is one control write, of the widened reading. -/
theorem lddetuneWritesTheTarget : Obligations.LddetuneWritesTheTarget := fun k10 s =>
  ⟨_, rfl, detuneTarget k10, detuneTarget_toNat k10, controlWrite_effect (.slaveOffsetTarget (detuneTarget k10)) s⟩

/-! ### The fold pair -/

/-- The pairs R51 admits, as numbers. -/
theorem legalFoldPair_iff (wf9 : BitVec 9) (nwf8 : BitVec 8) :
    legalFoldPair wf9 nwf8 = true ↔ 64 ≤ wf9.toNat ∧ 64 ≤ nwf8.toNat ∧ nwf8.toNat ≤ wf9.toNat := by
  simp [legalFoldPair, and_assoc]

/-- Settles O28: on the pairs R51 admits WRWF is one control write of the pair, and all other pairs are refused (R52). -/
theorem wrwfWritesTheFoldPair : Obligations.WrwfWritesTheFoldPair := by
  intro wf9 nwf8 s
  rw [← legalFoldPair_iff]
  exact ⟨fun hlegal => ⟨_, if_pos hlegal, controlWrite_effect (.foldPair wf9 nwf8) s⟩, fun hillegal => if_neg hillegal⟩

/-- R124's corners: the first factor reaches 511 at reading 894, the second leaves 64 at reading 132. -/
theorem foldFactors_corners {k w n : Nat} (hw : w = min (64 + k / 2) 511) (hn : n = max (w / 2) 64) :
    64 ≤ w ∧ w ≤ 511 ∧ 64 ≤ n ∧ n ≤ 255 ∧ n ≤ w ∧ (w = 511 ↔ 894 ≤ k) ∧ (64 < n ↔ 132 ≤ k) := by
  omega

/-- Settles O31: LDFOLD is one control write of the pair; its ranges and corners are facts about its two numbers. -/
theorem ldfoldWritesBothFactors : Obligations.LdfoldWritesBothFactors := fun k10 s =>
  have hw := foldWrapFactor_toNat k10
  have hn := foldNegWrapFactor_toNat (foldWrapFactor k10)
  ⟨_, rfl, foldWrapFactor k10, foldNegWrapFactor (foldWrapFactor k10), hw, hn, controlWrite_effect (.foldPair _ _) s,
    foldFactors_corners hw hn⟩

end Sys2Proof.Proofs
end

section
/-! PROOFS. The family 60_exceptions.md: what the block does while no event is waiting (R144). -/

namespace Sys2Proof.Proofs

open Sys2Proof Sys2Proof.Machine Sys2Proof.Laws

/-! ### Landing what is in flight keeps the engine registers -/

/-- Half-writes reach control registers only (R23, R39). -/
theorem settle_engineRegs (s : State) :
    (settle s).regs.masterPhase = s.regs.masterPhase ∧
    (settle s).regs.slaveOffsetCurrent = s.regs.slaveOffsetCurrent ∧
    (settle s).regs.output = s.regs.output ∧ (settle s).regs.pwmDuty = s.regs.pwmDuty :=
  ⟨landAll_masterPhase _ _, landAll_slaveOffsetCurrent _ _, landAll_output _ _, landAll_pwmDuty _ _⟩

/-! ### The idle step -/

/-- Settles O6: the idle step lands what is in flight and does nothing else (`step_idle`), so it keeps the engine
registers, completes a control write, and with nothing in flight changes nothing. -/
theorem idleBlockHoldsItsState : Obligations.IdleBlockHoldsItsState := by
  refine ⟨fun s he => ?_, fun s cw he => ?_⟩
  · obtain ⟨hphase, hoffset, houtput, hduty⟩ := settle_engineRegs s
    exact ⟨settle s, step_idle he, hphase, hoffset, houtput, hduty, rfl, rfl, he, rfl, rfl, settle_of_nil s⟩
  · exact ⟨_, step_idle ((controlWrite_events cw s).trans he), settle_controlWrite_regs cw s⟩

end Sys2Proof.Proofs
end

section
/-! PROOFS. The family 70_reset_and_hazards.md: what RESET writes (R150), the first emissions after it (R152), and
runs to the exhaustion of their events (R155). -/

namespace Sys2Proof.Proofs

open Sys2Proof Sys2Proof.Machine Sys2Proof.Laws

/-! ### RESET -/

/-- Settles O40: RESET loads the `RESET_VALUES` that the parameters carry. -/
theorem resetWritesEveryRegister : Obligations.ResetWritesEveryRegister := fun s =>
  ⟨_, exec_reset s, rfl, rfl, rfl, rfl, rfl, rfl, fun hdefault => congrArg Params.resetValues hdefault⟩

/-! ### From RESET to the second emission -/

theorem step_encoded_reset {s : State} {rest : List EventWord} (h : s.events = encode .reset :: rest) :
    step s = .next (StepKind.reset.next s) := by
  rw [step_encode_reset h, StepKind.next, h, List.tail_cons]

/-- The words of control events are consumed; phase, Output and trace stay as the engine left them (R23, R103). -/
theorem reachesIn_controls {cs : List Instr} (hcs : ∀ i ∈ cs, i.isControl = true ∧ i.wellFormed = true) {s : State}
    {rest : List EventWord} (he : s.events = words cs ++ rest) :
    ∃ t, ReachesIn cs.length s t ∧ t.events = rest ∧ t.regs.masterPhase = s.regs.masterPhase ∧
      t.regs.output = s.regs.output ∧ t.trace = s.trace := by
  induction cs generalizing s with
  | nil => exact ⟨s, run_zero s, he, rfl, rfl, rfl⟩
  | cons i cs ih =>
    obtain ⟨⟨hi, hw⟩, hcs⟩ := List.forall_mem_cons.mp hcs
    obtain ⟨cw, -, hstep⟩ := step_control he (decode_encode hw) hi
    obtain ⟨t, hrun, hevents, hphase, houtput, htrace⟩ := ih hcs
      (s := controlWrite cw (s.withEvents (words cs ++ rest))) (controlWrite_events cw _)
    exact ⟨t, (run_succ hstep cs.length).trans hrun, hevents, hphase.trans (controlWrite_masterPhase cw _),
      houtput.trans (controlWrite_output cw _), htrace.trans (controlWrite_trace cw _)⟩

/-- Settles O42: up to each TICK the control events keep phase, Output and trace, so the first finds what RESET wrote
and the second what the first computed. -/
theorem firstEmissionIsTheResetOutput : Obligations.FirstEmissionIsTheResetOutput := by
  intro s cs ds rest hcs hds he
  have hwords : s.events =
      encode .reset :: (words cs ++ encode .tick :: (words ds ++ encode .tick :: rest)) := by
    simpa [words] using he
  obtain ⟨a, hrunA, heA, hphaseA, houtA, htraceA⟩ := reachesIn_controls hcs (s := StepKind.reset.next s)
    (congrArg List.tail hwords)
  obtain ⟨c, hrunC, heC, -, houtC, htraceC⟩ := reachesIn_controls hds (s := StepKind.tick.next a)
    (congrArg List.tail heA)
  have htraceB : (StepKind.tick.next a).trace = [s.params.resetValues.output] := by
    rw [StepKind.next, htraceA, houtA]
    rfl
  refine ⟨a, _, c, _, ?_, step_encoded_tick heA, hrunC, step_encoded_tick heC, ?_, houtA, htraceB, houtC, ?_⟩
  · rw [Nat.add_comm]
    exact (run_succ (step_encoded_reset hwords) cs.length).trans hrunA
  · rw [tick_next_masterPhase, hphaseA]
    rfl
  · rw [StepKind.next, htraceC, htraceB, houtC]
    rfl

/-! ### Runs to exhaustion -/

/-- With no reserved word ahead the machine consumes every word (R131). -/
theorem reachesIn_exhaustion {s : State} (hs : ∀ w ∈ s.events, ¬ ReservedWord w) :
    ∃ t, ReachesIn s.events.length s t ∧ t.events = [] := by
  induction he : s.events generalizing s with
  | nil => exact ⟨s, run_zero s, he⟩
  | cons w ws ih =>
    rcases reservedWordsAreRefusedAllElseRuns s with ⟨w', ws', he', hreserved, -⟩ | ⟨-, u, hstep⟩
    · exact absurd hreserved (hs w' (he' ▸ List.mem_cons_self))
    have hevents : u.events = ws := by
      rw [(stepConsumesOneWordAndKeepsParams s u hstep).1, he, List.tail_cons]
    rw [he] at hs
    obtain ⟨t, hrun, ht⟩ := ih (hevents ▸ (List.forall_mem_cons.mp hs).2) hevents
    exact ⟨t, (run_succ hstep ws.length).trans hrun, ht⟩

/-- The emissions in the trace and those still to come: the TICKs among the words ahead. -/
def emissionsInAll (s : State) : Nat :=
  s.trace.length + s.events.count (encode .tick)

/-- No step adds to them: a TICK turns a word ahead into an emission, any other event emits nothing (R103). -/
theorem emissionsInAll_of_step {s t : State} (h : step s = .next t) : emissionsInAll t ≤ emissionsInAll s := by
  rcases step_cases h with ⟨-, rfl⟩ | ⟨w, rest, i, he, hd, hi⟩
  · exact le_rfl
  obtain ⟨hevents, -⟩ := stepConsumesOneWordAndKeepsParams s t h
  obtain ⟨u, hu, htick, hcontrol, hreset⟩ := onlyTickEmits s w rest i he hd
  obtain rfl := Host.Outcome.next.inj (hu.symm.trans h)
  rw [emissionsInAll, emissionsInAll, hevents, he, List.tail_cons]
  rcases hi with rfl | rfl | hi
  · rw [(htick rfl).1, ← encode_of_decode hd, List.count_cons_self, List.length_append, List.length_singleton]
    omega
  · rw [(hreset rfl).1, List.length_nil, Nat.zero_add]
    exact List.count_le_count_cons.trans (Nat.le_add_left _ _)
  · rw [(hcontrol hi).1]
    exact Nat.add_le_add_left List.count_le_count_cons _

/-- Settles O49: no word of the run is refused, and from its RESET on, which empties the trace, the emissions in all
are at most the run's TICKs. -/
theorem runsCompleteWithoutRefusal : Obligations.RunsCompleteWithoutRefusal := by
  intro s ⟨hhead, hs⟩
  obtain ⟨t, hrun, ht⟩ := reachesIn_exhaustion hs
  obtain ⟨rest, he⟩ := List.head?_eq_some_iff.mp hhead
  refine ⟨t, hrun, ht, ?_⟩
  rw [he] at hrun ⊢
  obtain ⟨u, hu, hrest⟩ := run_succ_cases hrun
  obtain rfl := Host.Outcome.next.inj ((step_encode_reset he).symm.trans hu)
  have hbound : emissionsInAll t ≤ rest.count (encode .tick) :=
    run_keeps (emissionsInAll · ≤ rest.count (encode .tick))
      (fun _ _ hle hstep => (emissionsInAll_of_step hstep).trans hle) hrest (Nat.zero_add _).le
  calc t.trace.length ≤ emissionsInAll t := Nat.le_add_right _ _
    _ ≤ rest.count (encode .tick) := hbound
    _ ≤ (encode .reset :: rest).count (encode .tick) := List.count_le_count_cons

end Sys2Proof.Proofs
end
